-- ==== Sys2Proof/Word.lean ====
section
/-! DEFINITION. The word types of the hardware: bytes, 16-bit words, 12-bit addresses, register numbers and key sets. -/

namespace Sys2Proof

/-- A byte: a general register, a timer, a byte of memory (R10, R16, R30). -/
abbrev Byte := BitVec 8

/-- A 16-bit word: `I`, `PC`, a return address, an instruction word (R12, R13, R14, R46). -/
abbrev Word := BitVec 16

/-- Four bits of an instruction word, which the spec calls a nibble (R7). -/
abbrev Nibble := BitVec 4

/-- The 12-bit address field `nnn` of an instruction word (R47). -/
abbrev Addr := BitVec 12

/-- A register number 0 to 15, or one of the 16 key codes (R10, R15). -/
abbrev Reg := Fin 16

/-- Sixteen key flags as a vector: bit `k` is key `k` (R15). -/
abbrev Keys := BitVec 16

/-- The number of the flag register `VF` (R11). -/
abbrev vf : Reg := 15

end Sys2Proof
end

