-- ==== Sys2Proof/Syntax.lean ====
section
/-! DEFINITION. The 35 instructions of rule R51 of 30_encoding.md, one constructor a row of spec/opcode_table.json. -/

namespace Sys2Proof

/-- An instruction with its operand fields (R47): `x` and `y` register numbers, `nn` an 8-bit immediate, `nnn` a
12-bit address, `n` a sprite height. The constructors stand in the order of R51. -/
inductive Instr where
  /-- `SYS addr`, 0nnn (R72). -/
  | sys (nnn : Addr)
  /-- `CLS`, 00E0 (R70). -/
  | cls
  /-- `RET`, 00EE (R71). -/
  | ret
  /-- `JP addr`, 1nnn (R73). -/
  | jp (nnn : Addr)
  /-- `CALL addr`, 2nnn (R75). -/
  | call (nnn : Addr)
  /-- `SE Vx, byte`, 3xnn (R76). -/
  | seByte (x : Reg) (nn : Byte)
  /-- `SNE Vx, byte`, 4xnn (R77). -/
  | sneByte (x : Reg) (nn : Byte)
  /-- `SE Vx, Vy`, 5xy0 (R78). -/
  | seReg (x y : Reg)
  /-- `LD Vx, byte`, 6xnn (R80). -/
  | ldByte (x : Reg) (nn : Byte)
  /-- `ADD Vx, byte`, 7xnn (R88). -/
  | addByte (x : Reg) (nn : Byte)
  /-- `LD Vx, Vy`, 8xy0 (R81). -/
  | ldReg (x y : Reg)
  /-- `OR Vx, Vy`, 8xy1 (R93). -/
  | orReg (x y : Reg)
  /-- `AND Vx, Vy`, 8xy2 (R94). -/
  | andReg (x y : Reg)
  /-- `XOR Vx, Vy`, 8xy3 (R95). -/
  | xorReg (x y : Reg)
  /-- `ADD Vx, Vy`, 8xy4 (R90). -/
  | addReg (x y : Reg)
  /-- `SUB Vx, Vy`, 8xy5 (R91). -/
  | subReg (x y : Reg)
  /-- `SHR Vx {, Vy}`, 8xy6 (R96); `y` is encoded and ignored. -/
  | shr (x y : Reg)
  /-- `SUBN Vx, Vy`, 8xy7 (R92). -/
  | subnReg (x y : Reg)
  /-- `SHL Vx {, Vy}`, 8xyE (R97); `y` is encoded and ignored. -/
  | shl (x y : Reg)
  /-- `SNE Vx, Vy`, 9xy0 (R79). -/
  | sneReg (x y : Reg)
  /-- `LD I, addr`, Annn (R82). -/
  | ldI (nnn : Addr)
  /-- `JP V0, addr`, Bnnn (R74). -/
  | jpV0 (nnn : Addr)
  /-- `RND Vx, byte`, Cxnn (R98). -/
  | rnd (x : Reg) (nn : Byte)
  /-- `DRW Vx, Vy, nibble`, Dxyn (R100). -/
  | drw (x y : Reg) (n : Nibble)
  /-- `SKP Vx`, Ex9E (R103). -/
  | skp (x : Reg)
  /-- `SKNP Vx`, ExA1 (R104). -/
  | sknp (x : Reg)
  /-- `LD Vx, DT`, Fx07 (R108). -/
  | ldVxDt (x : Reg)
  /-- `LD Vx, K`, Fx0A (R105). -/
  | ldVxK (x : Reg)
  /-- `LD DT, Vx`, Fx15 (R109). -/
  | ldDtVx (x : Reg)
  /-- `LD ST, Vx`, Fx18 (R110). -/
  | ldStVx (x : Reg)
  /-- `ADD I, Vx`, Fx1E (R89). -/
  | addI (x : Reg)
  /-- `LD F, Vx`, Fx29 (R86). -/
  | ldF (x : Reg)
  /-- `LD B, Vx`, Fx33 (R85). -/
  | ldB (x : Reg)
  /-- `LD [I], Vx`, Fx55 (R83). -/
  | storeRegs (x : Reg)
  /-- `LD Vx, [I]`, Fx65 (R84). -/
  | loadRegs (x : Reg)
  deriving DecidableEq, Repr

end Sys2Proof
end

