-- ==== Sys2Proof/WellFormed.lean ====
section
/-! DEFINITION. Which terms of `Instr` are instructions of the hardware. -/

namespace Sys2Proof

/-- The field types already bound every operand to the values its field can encode (R47, R49), and all of them are
legal. The one check left is R50's priority in family 0: the words 00E0 and 00EE are `CLS` and `RET`, never `SYS`. -/
def Instr.wellFormed : Instr → Bool
  | .sys nnn => nnn != 0x0E0#12 && nnn != 0x0EE#12
  | .cls => true
  | .ret => true
  | .jp _ => true
  | .call _ => true
  | .seByte _ _ => true
  | .sneByte _ _ => true
  | .seReg _ _ => true
  | .ldByte _ _ => true
  | .addByte _ _ => true
  | .ldReg _ _ => true
  | .orReg _ _ => true
  | .andReg _ _ => true
  | .xorReg _ _ => true
  | .addReg _ _ => true
  | .subReg _ _ => true
  | .shr _ _ => true
  | .subnReg _ _ => true
  | .shl _ _ => true
  | .sneReg _ _ => true
  | .ldI _ => true
  | .jpV0 _ => true
  | .rnd _ _ => true
  | .drw _ _ _ => true
  | .skp _ => true
  | .sknp _ => true
  | .ldVxDt _ => true
  | .ldVxK _ => true
  | .ldDtVx _ => true
  | .ldStVx _ => true
  | .addI _ => true
  | .ldF _ => true
  | .ldB _ => true
  | .storeRegs _ => true
  | .loadRegs _ => true

end Sys2Proof
end

