-- ==== Sys2Proof/Decode.lean ====
section
/-! DEFINITION. Decoding (rules R46 to R52 of 30_encoding.md), the encoder, and the opcode table of R51 as data.
Every bit pattern is general knowledge by the spec's own mark (93 G1; log 8). -/

namespace Sys2Proof

/-! ## The fields of an instruction word (R47) -/

/-- `op = w[15:12]`, the family. -/
def opField (w : Word) : Nibble := w.extractLsb' 12 4

/-- A four-bit field read as a register number; all 16 values are legal (R49). -/
def regOfNibble (b : Nibble) : Reg := b.toFin

/-- `x = w[11:8]`. -/
def xField (w : Word) : Reg := regOfNibble (w.extractLsb' 8 4)

/-- `y = w[7:4]`. -/
def yField (w : Word) : Reg := regOfNibble (w.extractLsb' 4 4)

/-- `n = w[3:0]`. -/
def nField (w : Word) : Nibble := w.extractLsb' 0 4

/-- `nn = w[7:0]`. -/
def nnField (w : Word) : Byte := w.extractLsb' 0 8

/-- `nnn = w[11:0]`. -/
def nnnField (w : Word) : Addr := w.extractLsb' 0 12

/-! ## Decoding a word (R50) -/

/-- Family 0: the two exact words take priority over `SYS`. -/
def decodeFamily0 (nnn : Addr) : Instr :=
  if nnn = 0x0E0#12 then .cls else if nnn = 0x0EE#12 then .ret else .sys nnn

/-- Family 8: the low nibble is the minor opcode. -/
def decodeFamily8 (x y : Reg) (n : Nibble) : Option Instr :=
  match n with
  | 0x0#4 => some (.ldReg x y)
  | 0x1#4 => some (.orReg x y)
  | 0x2#4 => some (.andReg x y)
  | 0x3#4 => some (.xorReg x y)
  | 0x4#4 => some (.addReg x y)
  | 0x5#4 => some (.subReg x y)
  | 0x6#4 => some (.shr x y)
  | 0x7#4 => some (.subnReg x y)
  | 0xE#4 => some (.shl x y)
  | _ => none

/-- Family E: the low byte is the minor opcode. -/
def decodeFamilyE (x : Reg) (nn : Byte) : Option Instr :=
  match nn with
  | 0x9E#8 => some (.skp x)
  | 0xA1#8 => some (.sknp x)
  | _ => none

/-- Family F: the low byte is the minor opcode. -/
def decodeFamilyF (x : Reg) (nn : Byte) : Option Instr :=
  match nn with
  | 0x07#8 => some (.ldVxDt x)
  | 0x0A#8 => some (.ldVxK x)
  | 0x15#8 => some (.ldDtVx x)
  | 0x18#8 => some (.ldStVx x)
  | 0x1E#8 => some (.addI x)
  | 0x29#8 => some (.ldF x)
  | 0x33#8 => some (.ldB x)
  | 0x55#8 => some (.storeRegs x)
  | 0x65#8 => some (.loadRegs x)
  | _ => none

/-- `decode(w)` of R50, total on the 65536 words; `none` is the spec's `Illegal` (R52). -/
def decodeWord (w : Word) : Option Instr :=
  match opField w with
  | 0x0#4 => some (decodeFamily0 (nnnField w))
  | 0x1#4 => some (.jp (nnnField w))
  | 0x2#4 => some (.call (nnnField w))
  | 0x3#4 => some (.seByte (xField w) (nnField w))
  | 0x4#4 => some (.sneByte (xField w) (nnField w))
  | 0x5#4 => if nField w = 0#4 then some (.seReg (xField w) (yField w)) else none
  | 0x6#4 => some (.ldByte (xField w) (nnField w))
  | 0x7#4 => some (.addByte (xField w) (nnField w))
  | 0x8#4 => decodeFamily8 (xField w) (yField w) (nField w)
  | 0x9#4 => if nField w = 0#4 then some (.sneReg (xField w) (yField w)) else none
  | 0xA#4 => some (.ldI (nnnField w))
  | 0xB#4 => some (.jpV0 (nnnField w))
  | 0xC#4 => some (.rnd (xField w) (nnField w))
  | 0xD#4 => some (.drw (xField w) (yField w) (nField w))
  | 0xE#4 => decodeFamilyE (xField w) (nnField w)
  | _ => decodeFamilyF (xField w) (nnField w)

/-! ## Decoding bytes -/

/-- Why bytes decode to no instruction. -/
inductive DecodeError where
  /-- Fewer than the two bytes of an instruction (R46). -/
  | truncated
  /-- The word matches no pattern of R51 (R52). -/
  | illegalWord (w : Word)
  deriving DecidableEq, Repr

/-- The big-endian word of two bytes: the byte at the lower address holds bits 15 to 8 (R33, R46). -/
def wordOfBytes (hi lo : Byte) : Word := hi ++ lo

/-- The instruction at the front of a list of bytes, with the bytes after it. -/
def decode : List Byte → Except DecodeError (Instr × List Byte)
  | hi :: lo :: rest =>
    match decodeWord (wordOfBytes hi lo) with
    | some i => .ok (i, rest)
    | none => .error (.illegalWord (wordOfBytes hi lo))
  | _ => .error .truncated

/-! ## Encoding (R48, R51) -/

/-- The four bits of a register number. -/
def nibbleOfReg (x : Reg) : Nibble := BitVec.ofFin x

/-- Format `NNN`. -/
def formatNNN (op : Nibble) (nnn : Addr) : Word := op ++ nnn

/-- Format `XNN`; with a fixed low byte it is format `X`. -/
def formatXNN (op : Nibble) (x : Reg) (nn : Byte) : Word := op ++ (nibbleOfReg x ++ nn)

/-- Format `XYN`; with a fixed low nibble it is format `XY`. -/
def formatXYN (op : Nibble) (x y : Reg) (n : Nibble) : Word :=
  op ++ (nibbleOfReg x ++ (nibbleOfReg y ++ n))

/-- The word of an instruction, row by row of R51. -/
def encodeWord : Instr → Word
  | .sys nnn => formatNNN 0x0#4 nnn
  | .cls => formatNNN 0x0#4 0x0E0#12
  | .ret => formatNNN 0x0#4 0x0EE#12
  | .jp nnn => formatNNN 0x1#4 nnn
  | .call nnn => formatNNN 0x2#4 nnn
  | .seByte x nn => formatXNN 0x3#4 x nn
  | .sneByte x nn => formatXNN 0x4#4 x nn
  | .seReg x y => formatXYN 0x5#4 x y 0x0#4
  | .ldByte x nn => formatXNN 0x6#4 x nn
  | .addByte x nn => formatXNN 0x7#4 x nn
  | .ldReg x y => formatXYN 0x8#4 x y 0x0#4
  | .orReg x y => formatXYN 0x8#4 x y 0x1#4
  | .andReg x y => formatXYN 0x8#4 x y 0x2#4
  | .xorReg x y => formatXYN 0x8#4 x y 0x3#4
  | .addReg x y => formatXYN 0x8#4 x y 0x4#4
  | .subReg x y => formatXYN 0x8#4 x y 0x5#4
  | .shr x y => formatXYN 0x8#4 x y 0x6#4
  | .subnReg x y => formatXYN 0x8#4 x y 0x7#4
  | .shl x y => formatXYN 0x8#4 x y 0xE#4
  | .sneReg x y => formatXYN 0x9#4 x y 0x0#4
  | .ldI nnn => formatNNN 0xA#4 nnn
  | .jpV0 nnn => formatNNN 0xB#4 nnn
  | .rnd x nn => formatXNN 0xC#4 x nn
  | .drw x y n => formatXYN 0xD#4 x y n
  | .skp x => formatXNN 0xE#4 x 0x9E#8
  | .sknp x => formatXNN 0xE#4 x 0xA1#8
  | .ldVxDt x => formatXNN 0xF#4 x 0x07#8
  | .ldVxK x => formatXNN 0xF#4 x 0x0A#8
  | .ldDtVx x => formatXNN 0xF#4 x 0x15#8
  | .ldStVx x => formatXNN 0xF#4 x 0x18#8
  | .addI x => formatXNN 0xF#4 x 0x1E#8
  | .ldF x => formatXNN 0xF#4 x 0x29#8
  | .ldB x => formatXNN 0xF#4 x 0x33#8
  | .storeRegs x => formatXNN 0xF#4 x 0x55#8
  | .loadRegs x => formatXNN 0xF#4 x 0x65#8

/-- The two bytes of a word, the high byte first (R33). -/
def bytesOfWord (w : Word) : List Byte := [w.extractLsb' 8 8, w.extractLsb' 0 8]

/-- The bytes of an instruction as they stand in memory. -/
def encode (i : Instr) : List Byte := bytesOfWord (encodeWord i)

/-! ## The opcode table of R51 -/

/-- One row of R51's table: a word selects it when `word &&& mask = pattern`. -/
structure OpcodeRow where
  mnemonic : String
  mask : Word
  pattern : Word
  deriving DecidableEq, Repr

/-- The row of an instruction: mask and match as R51 writes them. -/
def Instr.row : Instr → OpcodeRow
  | .sys _ => ⟨"SYS_addr", 0xF000, 0x0000⟩
  | .cls => ⟨"CLS", 0xFFFF, 0x00E0⟩
  | .ret => ⟨"RET", 0xFFFF, 0x00EE⟩
  | .jp _ => ⟨"JP_addr", 0xF000, 0x1000⟩
  | .call _ => ⟨"CALL_addr", 0xF000, 0x2000⟩
  | .seByte _ _ => ⟨"SE_Vx__byte", 0xF000, 0x3000⟩
  | .sneByte _ _ => ⟨"SNE_Vx__byte", 0xF000, 0x4000⟩
  | .seReg _ _ => ⟨"SE_Vx__Vy", 0xF00F, 0x5000⟩
  | .ldByte _ _ => ⟨"LD_Vx__byte", 0xF000, 0x6000⟩
  | .addByte _ _ => ⟨"ADD_Vx__byte", 0xF000, 0x7000⟩
  | .ldReg _ _ => ⟨"LD_Vx__Vy", 0xF00F, 0x8000⟩
  | .orReg _ _ => ⟨"OR_Vx__Vy", 0xF00F, 0x8001⟩
  | .andReg _ _ => ⟨"AND_Vx__Vy", 0xF00F, 0x8002⟩
  | .xorReg _ _ => ⟨"XOR_Vx__Vy", 0xF00F, 0x8003⟩
  | .addReg _ _ => ⟨"ADD_Vx__Vy", 0xF00F, 0x8004⟩
  | .subReg _ _ => ⟨"SUB_Vx__Vy", 0xF00F, 0x8005⟩
  | .shr _ _ => ⟨"SHR_Vx____Vy", 0xF00F, 0x8006⟩
  | .subnReg _ _ => ⟨"SUBN_Vx__Vy", 0xF00F, 0x8007⟩
  | .shl _ _ => ⟨"SHL_Vx____Vy", 0xF00F, 0x800E⟩
  | .sneReg _ _ => ⟨"SNE_Vx__Vy", 0xF00F, 0x9000⟩
  | .ldI _ => ⟨"LD_I__addr", 0xF000, 0xA000⟩
  | .jpV0 _ => ⟨"JP_V0__addr", 0xF000, 0xB000⟩
  | .rnd _ _ => ⟨"RND_Vx__byte", 0xF000, 0xC000⟩
  | .drw _ _ _ => ⟨"DRW_Vx__Vy__nibble", 0xF000, 0xD000⟩
  | .skp _ => ⟨"SKP_Vx", 0xF0FF, 0xE09E⟩
  | .sknp _ => ⟨"SKNP_Vx", 0xF0FF, 0xE0A1⟩
  | .ldVxDt _ => ⟨"LD_Vx__DT", 0xF0FF, 0xF007⟩
  | .ldVxK _ => ⟨"LD_Vx__K", 0xF0FF, 0xF00A⟩
  | .ldDtVx _ => ⟨"LD_DT__Vx", 0xF0FF, 0xF015⟩
  | .ldStVx _ => ⟨"LD_ST__Vx", 0xF0FF, 0xF018⟩
  | .addI _ => ⟨"ADD_I__Vx", 0xF0FF, 0xF01E⟩
  | .ldF _ => ⟨"LD_F__Vx", 0xF0FF, 0xF029⟩
  | .ldB _ => ⟨"LD_B__Vx", 0xF0FF, 0xF033⟩
  | .storeRegs _ => ⟨"LD__I___Vx", 0xF0FF, 0xF055⟩
  | .loadRegs _ => ⟨"LD_Vx___I", 0xF0FF, 0xF065⟩

/-! ## The host's table words -/

/-- The instruction the decoder reads from a table word: bit 0 of `w` is the least significant bit of the one
16-bit word, and bits at or above `nbits` are 0. -/
def decodeTableWord (nbits w : Nat) : Option Instr :=
  match decode (bytesOfWord (BitVec.ofNat 16 (w % 2 ^ nbits))) with
  | .ok (i, _) => some i
  | .error _ => none

end Sys2Proof
end

