-- ==== Sys2Proof/Config.lean ====
section
/-! DEFINITION. The size parameters of rule R4 of 00_scope.md and the free byte of RND. -/

namespace Sys2Proof.Config

/-- `MEM_SIZE - 1`, the highest address of the Memory Image (R4, R30). -/
@[simp] abbrev topAddress : Nat := 0xFFF

/-- `PROG_BASE`, the load address and the reset value of `PC` (R4, R24). -/
@[simp] abbrev progBase : Nat := 0x200

/-- `MAX_PROG`, the length in bytes of the largest accepted program (R4, R142). -/
@[simp] abbrev maxProg : Nat := 3584

/-- `STACK_DEPTH`, the number of return addresses the Call Stack holds (R4, R14). -/
@[simp] abbrev stackDepth : Nat := 16

/-- The free byte `rnd` of R23: the `k`-th byte that an RND draws. It has no body that Lean can evaluate, so a
claim about RND holds whatever the byte is. DESIGN CHOICE: a counter in State numbers the draws (log 1); safe. -/
opaque rnd : Nat → Byte

end Sys2Proof.Config
end

