-- ==== Sys2Proof/Machine/State.lean ====
section
/-! DEFINITION. The state of the core (rule R22 of 10_state.md closes the list), the host's commands and their
responses (R6 of 00_scope.md), the faults (R115 of 60_exceptions.md) and the state after reset (R24). -/

namespace Sys2Proof.Machine

/-- The Memory Image as its differences from the reset contents: (address, byte) pairs in canonical form, see
`Memory.wf` (R30; log 7). -/
abbrev Memory := List Host.Cell

/-- The 2048 cells: 32 rows from the top, each of 64 columns from the left (R17). -/
abbrev Framebuffer := Vector (Vector Bool 64) 32

/-- The host's commands (R6): everything that can act on the core. `runCycle` carries no byte here: the free input
`rnd` of R23 is `Config.rnd` at the counter `rndIndex` (log 1). -/
inductive Command where
  /-- Reset (R140). -/
  | setDefaults
  /-- Validate and copy a program; `none` is an absent buffer (R142). -/
  | load (buf : Option (List Byte))
  /-- The execution guard (R143). -/
  | start
  /-- One instruction, or one key-wait poll (R60). -/
  | runCycle
  /-- One period of the external clock (R127). -/
  | tick
  /-- Write the whole keypad (R128). -/
  | setKeys (k : Keys)
  /-- Read both timers (R129). -/
  | readTimers
  /-- Write the delay timer (R130). -/
  | writeDT (b : Byte)
  /-- Write the sound timer (R130). -/
  | writeST (b : Byte)
  /-- Read the cells and the dirty flag (R131). -/
  | readFramebuffer
  /-- Clear the dirty flag (R132). -/
  | clearDirty
  /-- Read the program counter (R133). -/
  | queryPC
  /-- Read the loaded flag (R133). -/
  | queryLoaded
  deriving DecidableEq, Repr

/-- The seven faults of R115, each with its `info`. A fault is the failure response of a command and leaves the
state as it was (R121); a run whose command faults ends there. All are safe: the core itself refuses to go on with
that command. -/
inductive Fault where
  /-- Raised by `Load` of an absent buffer (R142); safe. -/
  | invalidArgument
  /-- Raised by `Load` of more than 3584 bytes, with the length (R142); safe. -/
  | programTooLarge (len : Nat)
  /-- Raised by `Start` and `RunCycle` while nothing is loaded (R143, R60); safe. -/
  | programNotLoaded
  /-- Raised by the fetch, `LD [I], Vx`, `LD Vx, [I]`, `LD B, Vx` and `DRW`, with the address of R117; safe. -/
  | memoryOutOfBounds (addr : Nat)
  /-- Raised by `CALL` with 16 return addresses held, with its `PC` (R118); safe. -/
  | stackOverflow (pc : Word)
  /-- Raised by `RET` with none held, with its `PC` (R118); safe. -/
  | stackUnderflow (pc : Word)
  /-- Raised by an illegal word and by `SYS addr`, with the word (R119); safe. -/
  | decodeFault (w : Word)
  deriving DecidableEq, Repr

/-- Why the model gives an instruction no meaning. -/
inductive Refusal where
  /-- Raised by an arm of `exec` whose instruction has no meaning yet (none is left); safe. -/
  | notModelled (mnemonic : String)
  deriving DecidableEq, Repr

/-- What a command answers the host (R6). -/
inductive Response where
  /-- The command succeeded and returns nothing. -/
  | ok
  /-- `ReadTimers`: DT and ST (R129). -/
  | timers (dt st : Byte)
  /-- `ReadFramebuffer`: the 2048 cells at `y * 64 + x`, and the dirty flag (R131). -/
  | framebuffer (cells : Vector Bool 2048) (dirty : Bool)
  /-- `QueryPC` (R133). -/
  | pc (a : Word)
  /-- `QueryLoaded` (R133). -/
  | loaded (b : Bool)
  /-- The command failed (R115, R121). -/
  | fault (f : Fault)
  deriving DecidableEq, Repr

/-- The state of the core, by the names of R22, and two fields of the model's own (`rndIndex`, `inbox`). -/
structure State where
  /-- `V[0..15]` (R10). -/
  v : Vector Byte 16
  /-- The index register `I` (R12). -/
  i : Word
  /-- The program counter (R13). -/
  pc : Word
  /-- `stack[0..15]`; entries at `sp` and above are not architectural (R14; log 6). -/
  stack : Vector Word 16
  /-- The number of live return addresses, 0 to 16 (R14). -/
  sp : Fin 17
  /-- The keys held (R15). -/
  keypad : Keys
  /-- The delay timer (R16). -/
  dt : Byte
  /-- The sound timer (R16). -/
  st : Byte
  /-- The framebuffer (R17). -/
  fb : Framebuffer
  /-- A cell has changed since the flag was cleared (R18). -/
  dirty : Bool
  /-- A program is loaded (R19). -/
  loaded : Bool
  /-- `prog_len`: the length of the last program loaded (R20). -/
  progLen : Nat
  /-- A `LD Vx, K` is suspended (R21). -/
  awaiting : Bool
  /-- The `x` of the suspended `LD Vx, K` (R21). -/
  waitReg : Reg
  /-- The keypad at the previous poll (R21). -/
  keyPrev : Keys
  /-- The Memory Image (R30). -/
  mem : Memory
  /-- The model's own: how many bytes RND has drawn so far (log 1). -/
  rndIndex : Nat
  /-- The model's own: the commands that have arrived and are not yet processed, oldest first (R5; log 2). -/
  inbox : List Command
  deriving DecidableEq, Repr

/-- The state of a new instance, which is the state after `SetDefaults` (R24, R140, R141). Memory lists nothing, so
every byte reads as its reset byte, the font among them. `rndIndex` and `inbox` are the model's own: DESIGN CHOICE
(logs 1 and 2), unsafe for a claim that rests on their reset values. -/
def State.reset : State where
  v := Vector.replicate 16 0#8
  i := 0#16
  pc := BitVec.ofNat 16 Config.progBase
  stack := Vector.replicate 16 0#16
  sp := 0
  keypad := 0#16
  dt := 0#8
  st := 0#8
  fb := Vector.replicate 32 (Vector.replicate 64 false)
  dirty := false
  loaded := false
  progLen := 0
  awaiting := false
  waitReg := 0
  keyPrev := 0#16
  mem := []
  rndIndex := 0
  inbox := []

end Sys2Proof.Machine
end

