-- ==== Sys2Proof/Machine/Ops.lean ====
section
/-! DEFINITION. The named operations over memory and state that the instruction meanings share, and `raise`. -/

namespace Sys2Proof.Machine

/-! ## The font (R25) -/

/-- `FONT_BASE`, the address of glyph 0 (R4, R25; decision D6 of the spec). -/
@[simp] abbrev fontBase : Nat := 0x050

/-- `FONT_HEIGHT`, the bytes of one glyph (R4, R25; decision D6 of the spec). -/
@[simp] abbrev fontHeight : Nat := 5

/-- `FONT_DATA`: the 16 glyphs of R25, five bytes each. PRESUMED: the spec marks the byte values as general
knowledge, not in its source (93 G2; log 7); unsafe for a claim that names a glyph's pixels. -/
def fontData : List Byte :=
  [0xF0, 0x90, 0x90, 0x90, 0xF0,   0x20, 0x60, 0x20, 0x20, 0x70]
  ++ [0xF0, 0x10, 0xF0, 0x80, 0xF0,   0xF0, 0x10, 0xF0, 0x10, 0xF0]
  ++ [0x90, 0x90, 0xF0, 0x10, 0x10,   0xF0, 0x80, 0xF0, 0x10, 0xF0]
  ++ [0xF0, 0x80, 0xF0, 0x90, 0xF0,   0xF0, 0x10, 0x20, 0x40, 0x40]
  ++ [0xF0, 0x90, 0xF0, 0x90, 0xF0,   0xF0, 0x90, 0xF0, 0x10, 0xF0]
  ++ [0xF0, 0x90, 0xF0, 0x90, 0x90,   0xE0, 0x90, 0xE0, 0x90, 0xE0]
  ++ [0xF0, 0x80, 0x80, 0x80, 0xF0,   0xE0, 0x90, 0x90, 0x90, 0xE0]
  ++ [0xF0, 0x80, 0xF0, 0x80, 0xF0,   0xF0, 0x80, 0xF0, 0x80, 0x80]

/-! ## Memory -/

/-- What an address holds after reset: the font at 0x050 to 0x09F and 0 elsewhere (R24, R25). It is what an
unlisted address of a `Memory` reads as. -/
def Memory.resetByte (a : Nat) : Byte :=
  if a < fontBase then 0#8 else fontData.getD (a - fontBase) 0#8

/-- The byte at an address. The bound of R32 is checked before by `withinMemory` and `fetchWord`. -/
def Memory.read (m : Memory) (a : Nat) : Byte :=
  match m with
  | [] => resetByte a
  | (k, b) :: rest => if k = a then b else Memory.read rest a

/-- Put a cell at its place in rising order of address. -/
def Memory.insertCell (a : Nat) (b : Byte) : Memory → Memory
  | [] => [(a, b)]
  | (k, c) :: rest => if k < a then (k, c) :: insertCell a b rest else (a, b) :: (k, c) :: rest

/-- Write one byte (`MemWrite` of R32), keeping the canonical form: a byte equal to the reset byte is not listed. -/
def Memory.write (m : Memory) (a : Nat) (b : Byte) : Memory :=
  let others := m.filter fun c => c.1 != a
  if b = resetByte a then others else insertCell a b others

/-- Write bytes at `a`, `a + 1`, …, in that order. -/
def Memory.writeBytes (m : Memory) (a : Nat) : List Byte → Memory
  | [] => m
  | b :: bs => writeBytes (m.write a b) (a + 1) bs

/-- The `n` bytes at `a`, `a + 1`, …. -/
def Memory.readBytes (m : Memory) (a n : Nat) : List Byte :=
  (List.range n).map fun k => m.read (a + k)

/-- The canonical form from address `lo` on: addresses strictly rising, inside the Memory Image, and no entry equal
to its reset byte. -/
def Memory.wfFrom (lo : Nat) : Memory → Bool
  | [] => true
  | (a, b) :: rest =>
    decide (lo ≤ a) && decide (a ≤ Config.topAddress) && (b != resetByte a) && wfFrom (a + 1) rest

/-- The canonical form of a memory. -/
def Memory.wf (m : Memory) : Bool := m.wfFrom 0

/-! ## Faults -/

/-- `raise` of R121: the command ends at once with the fault as its response. Nothing is saved and nothing is
written: the fault carries no state, and `serve` pairs it with the state before the command. There is no return
from a fault (R122). -/
def raise (f : Fault) : Host.Outcome State Fault Refusal := .fault f

/-- The check a data instruction makes before its first access: `last` is the last address of its range (R32,
R117). -/
def withinMemory (last : Nat) (t : State) : Host.Outcome State Fault Refusal :=
  if last > Config.topAddress then raise (.memoryOutOfBounds last) else .next t

/-! ## Registers -/

/-- `V[x]`. -/
def State.reg (s : State) (x : Reg) : Byte := s.v[x]

/-- `V[x] <- b`. -/
def State.setReg (s : State) (x : Reg) (b : Byte) : State := { s with v := s.v.set x b }

/-- `V[k] <- bs[k]` for every `k` with a byte in the list, in ascending order. -/
def State.setFirstRegs (s : State) (bs : List Byte) : State :=
  { s with v := Vector.ofFn fun r : Reg => bs.getD r.val s.v[r] }

/-- `I <- a`. -/
def State.setIndex (s : State) (a : Word) : State := { s with i := a }

/-! ## The program counter (R63) -/

/-- `PC <- a`. -/
def State.goto (s : State) (a : Word) : State := { s with pc := a }

/-- `PC <- PC + 2`, in 16 bits. -/
def State.advance (s : State) : State := s.goto (s.pc + 2)

/-- `PC <- PC + 4` when the condition holds, else `PC <- PC + 2`. -/
def State.skipIf (s : State) (c : Bool) : State := if c then s.goto (s.pc + 4) else s.advance

/-! ## The call stack (R14) -/

/-- New entries and a new depth. -/
def State.setStack (s : State) (entries : Vector Word 16) (depth : Fin 17) : State :=
  { s with stack := entries, sp := depth }

/-- `stack[sp] <- a; sp <- sp + 1`, or `none` with 16 addresses held. -/
def State.push (s : State) (a : Word) : Option State :=
  if h : s.sp.val < Config.stackDepth then
    some (s.setStack (s.stack.set s.sp.val a h) ⟨s.sp.val + 1, Nat.succ_lt_succ h⟩)
  else none

/-- `sp <- sp - 1`, with the address `stack[sp]` then names, or `none` with the stack empty. -/
def State.pop (s : State) : Option (Word × State) :=
  if s.sp.val = 0 then none
  else
    some (s.stack[s.sp.val - 1]'(by have := s.sp.isLt; omega),
      s.setStack s.stack ⟨s.sp.val - 1, by have := s.sp.isLt; omega⟩)

/-! ## Memory, timers, framebuffer, key-wait, free byte -/

/-- Write bytes at `a`, `a + 1`, …. -/
def State.storeBytes (s : State) (a : Nat) (bs : List Byte) : State :=
  { s with mem := s.mem.writeBytes a bs }

/-- `DT <- b`. -/
def State.setDt (s : State) (b : Byte) : State := { s with dt := b }

/-- `ST <- b`. -/
def State.setSt (s : State) (b : Byte) : State := { s with st := b }

/-- New cells; `dirty` becomes true when a cell changed and otherwise keeps its value (R18). -/
def State.setCells (s : State) (fb : Framebuffer) (changed : Bool) : State :=
  { s with fb := fb, dirty := s.dirty || changed }

/-- Enter the awaiting state with register `x`, remembering the keypad as it stands (R105). -/
def State.suspend (s : State) (x : Reg) : State :=
  { s with awaiting := true, waitReg := x, keyPrev := s.keypad }

/-- Leave the awaiting state; `wait_reg` and `key_prev` keep their values (R106). -/
def State.resume (s : State) : State := { s with awaiting := false }

/-- Record the keypad as the core sees it at this poll (R106). -/
def State.recordKeys (s : State) : State := { s with keyPrev := s.keypad }

/-- The free byte of the current RunCycle (R23; log 1). -/
def State.rnd (s : State) : Byte := Config.rnd s.rndIndex

/-- The next RND draws another free byte (R23; log 1). -/
def State.nextRnd (s : State) : State := { s with rndIndex := s.rndIndex + 1 }

/-- The commands still to be processed. -/
def State.setInbox (s : State) (q : List Command) : State := { s with inbox := q }

/-- Store an instruction word where the next step fetches, and let that step fetch: a program is loaded, no key is
awaited and no command comes before. A `PC` that cannot be fetched from is moved to 0x200 (log 5). -/
def State.placeWord (s : State) (w : Word) : State :=
  let a : Word := if s.pc.toNat + 1 > Config.topAddress then BitVec.ofNat 16 Config.progBase else s.pc
  { s with
    mem := s.mem.writeBytes a.toNat (bytesOfWord w)
    pc := a
    loaded := true
    awaiting := false
    inbox := [] }

end Sys2Proof.Machine
end

