-- ==== Sys2Proof/Machine/Flags.lean ====
section
/-! DEFINITION. The flag values of R27 and R87, and the one order in which a result and a flag are written. -/

namespace Sys2Proof.Machine

/-- A flag as the byte VF receives: 1 or 0. -/
def flagByte (c : Bool) : Byte := if c then 1#8 else 0#8

/-- Carry out of `a + b` (R87, R90). -/
def carryOut (a b : Byte) : Bool := decide (a.toNat + b.toNat > 255)

/-- No borrow in `a - b` (R87, R91, R92; D19): equal operands give true. -/
def noBorrow (a b : Byte) : Bool := decide (b.toNat ≤ a.toNat)

/-- The bit a right shift shifts out (R96). -/
def shiftedOutRight (a : Byte) : Bool := a.getLsbD 0

/-- The bit a left shift shifts out (R97). -/
def shiftedOutLeft (a : Byte) : Bool := a.getLsbD 7

/-- `V[15] <- flag`. -/
def State.setFlag (s : State) (c : Bool) : State := s.setReg vf (flagByte c)

/-- The result to `V[x]`, then the flag to VF, so that with `x = 0xF` the flag is what stays (R87; D18). -/
def State.setResultAndFlag (s : State) (x : Reg) (result : Byte) (c : Bool) : State :=
  (s.setReg x result).setFlag c

end Sys2Proof.Machine
end

