-- ==== Sys2Proof/Machine/Operands.lean ====
section
/-! DEFINITION. Operand forms: how a field or a register's value becomes an operand (R49 and the rules of 41 to 45). -/

namespace Sys2Proof.Machine

/-- `zext_16(nnn)`: an address field as a 16-bit value (R49). -/
def zextAddr (nnn : Addr) : Word := nnn.setWidth 16

/-- `zext_16(b)`: a register's value as a 16-bit value (R74, R89). -/
def zextByte (b : Byte) : Word := b.setWidth 16

/-- The low nibble of a register's value as a number 0 to 15: a key code (R103, R104; D27) or a font digit (R86;
D26). -/
def lowNibble (b : Byte) : Reg := regOfNibble (b.extractLsb' 0 4)

/-- The address of the glyph of a digit, `FONT_BASE + FONT_HEIGHT * d` (R86). -/
def glyphAddress (d : Reg) : Word := BitVec.ofNat 16 (fontBase + fontHeight * d.val)

/-- The hundreds, tens and ones digits of a byte, in the order they are stored (R85). -/
def decimalDigits (a : Byte) : List Byte :=
  [BitVec.ofNat 8 (a.toNat / 100), BitVec.ofNat 8 (a.toNat / 10 % 10), BitVec.ofNat 8 (a.toNat % 10)]

/-- The values of `V0` to `Vx`, in that order (R83). -/
def State.firstRegs (s : State) (x : Reg) : List Byte := s.v.toList.take (x.val + 1)

/-- Whether the key whose code is the low nibble of `V[x]` is held (R103, R104). -/
def State.keyHeld (s : State) (x : Reg) : Bool := s.keypad.getLsbD (lowNibble (s.reg x)).val

end Sys2Proof.Machine
end

