-- ==== Sys2Proof/Machine/Arith.lean ====
section
/-! DEFINITION. The arithmetic and logic instructions of 43_arith_logic.md (R87 to R98). None of them can fault. -/

namespace Sys2Proof.Machine

/-- `ADD Vx, byte` (R88): no flag (D17). -/
def execAddByte (x : Reg) (nn : Byte) (s : State) : Host.Outcome State Fault Refusal :=
  .next (s.setReg x (s.reg x + nn)).advance

/-- `ADD I, Vx` (R89): 16-bit wrap, no flag (D22). -/
def execAddI (x : Reg) (s : State) : Host.Outcome State Fault Refusal :=
  .next (s.setIndex (s.i + zextByte (s.reg x))).advance

/-- `ADD Vx, Vy` (R90). -/
def execAddReg (x y : Reg) (s : State) : Host.Outcome State Fault Refusal :=
  .next (s.setResultAndFlag x (s.reg x + s.reg y) (carryOut (s.reg x) (s.reg y))).advance

/-- `SUB Vx, Vy` (R91). -/
def execSubReg (x y : Reg) (s : State) : Host.Outcome State Fault Refusal :=
  .next (s.setResultAndFlag x (s.reg x - s.reg y) (noBorrow (s.reg x) (s.reg y))).advance

/-- `SUBN Vx, Vy` (R92). -/
def execSubnReg (x y : Reg) (s : State) : Host.Outcome State Fault Refusal :=
  .next (s.setResultAndFlag x (s.reg y - s.reg x) (noBorrow (s.reg y) (s.reg x))).advance

/-- `OR Vx, Vy` (R93): VF is not written (D20). -/
def execOrReg (x y : Reg) (s : State) : Host.Outcome State Fault Refusal :=
  .next (s.setReg x (s.reg x ||| s.reg y)).advance

/-- `AND Vx, Vy` (R94): VF is not written (D20). -/
def execAndReg (x y : Reg) (s : State) : Host.Outcome State Fault Refusal :=
  .next (s.setReg x (s.reg x &&& s.reg y)).advance

/-- `XOR Vx, Vy` (R95): VF is not written (D20). -/
def execXorReg (x y : Reg) (s : State) : Host.Outcome State Fault Refusal :=
  .next (s.setReg x (s.reg x ^^^ s.reg y)).advance

/-- `SHR Vx` (R96): `Vx` in place, the encoded `y` is not read (D21). -/
def execShr (x _y : Reg) (s : State) : Host.Outcome State Fault Refusal :=
  .next (s.setResultAndFlag x (s.reg x >>> 1) (shiftedOutRight (s.reg x))).advance

/-- `SHL Vx` (R97): `Vx` in place, the encoded `y` is not read (D21). -/
def execShl (x _y : Reg) (s : State) : Host.Outcome State Fault Refusal :=
  .next (s.setResultAndFlag x (s.reg x <<< 1) (shiftedOutLeft (s.reg x))).advance

/-- `RND Vx, byte` (R98): the free byte of this RunCycle, masked (D29; log 1). -/
def execRnd (x : Reg) (nn : Byte) (s : State) : Host.Outcome State Fault Refusal :=
  .next (s.setReg x (s.rnd &&& nn)).nextRnd.advance

end Sys2Proof.Machine
end

