-- ==== Sys2Proof/Machine/FramebufferOps.lean ====
section
/-! DEFINITION. Operations on the framebuffer: cells, blanking, and drawing a sprite by exclusive or (R17, R70, R100). -/

namespace Sys2Proof.Machine

/-- `fb[x, y]`. -/
def Framebuffer.cell (fb : Framebuffer) (x : Fin 64) (y : Fin 32) : Bool := fb[y][x]

/-- `fb[x, y] <- fb[x, y] ^ 1`. -/
def Framebuffer.flip (fb : Framebuffer) (x : Fin 64) (y : Fin 32) : Framebuffer :=
  fb.set y (fb[y].set x (!fb[y][x]))

/-- All cells 0. -/
def Framebuffer.blank : Framebuffer := Vector.replicate 32 (Vector.replicate 64 false)

/-- Some cell is 1. -/
def Framebuffer.anyLit (fb : Framebuffer) : Bool :=
  (List.finRange 32).any fun y => (List.finRange 64).any fun x => fb.cell x y

/-- The cells in the order the host reads them, `index = y * 64 + x` (R17, R131). -/
def Framebuffer.readOut (fb : Framebuffer) : Vector Bool 2048 :=
  Vector.ofFn fun k : Fin 2048 =>
    fb.cell ⟨k.val % 64, Nat.mod_lt _ (by decide)⟩ ⟨k.val / 64, by have := k.isLt; omega⟩

/-- A column number reduced modulo 64: the horizontal wrap (R100). -/
def column (n : Nat) : Fin 64 := ⟨n % 64, Nat.mod_lt _ (by decide)⟩

/-- A row number reduced modulo 32: the vertical wrap (R100). -/
def row (n : Nat) : Fin 32 := ⟨n % 32, Nat.mod_lt _ (by decide)⟩

/-- A drawing in progress: the cells, whether one went from 1 to 0, and whether one changed (R100). -/
structure Drawing where
  fb : Framebuffer
  collision : Bool
  changed : Bool
  deriving DecidableEq, Repr

/-- One sprite bit that is 1, at column `px` and row `py` before reduction. -/
def Drawing.plot (d : Drawing) (px py : Nat) : Drawing where
  fb := d.fb.flip (column px) (row py)
  collision := d.collision || d.fb.cell (column px) (row py)
  changed := true

/-- One sprite byte at row `py`: bit 7 is the leftmost pixel. -/
def Drawing.plotRow (d : Drawing) (b : Byte) (x0 py : Nat) : Drawing :=
  (List.range 8).foldl (fun e c => if b.getLsbD (7 - c) then e.plot (x0 + c) py else e) d

/-- The sprite's bytes, one a row from the top. -/
def Drawing.plotSprite (d : Drawing) (x0 y0 : Nat) : List Byte → Drawing
  | [] => d
  | b :: bs => plotSprite (d.plotRow b x0 y0) x0 (y0 + 1) bs

/-- Draw a sprite on a framebuffer. -/
def Framebuffer.draw (fb : Framebuffer) (x0 y0 : Nat) (sprite : List Byte) : Drawing :=
  Drawing.plotSprite ⟨fb, false, false⟩ x0 y0 sprite

end Sys2Proof.Machine
end

