-- ==== Sys2Proof/Machine/ControlFlow.lean ====
section
/-! DEFINITION. The control-flow instructions of 41_control_flow.md (R70 to R79). -/

namespace Sys2Proof.Machine

/-- `CLS` (R70): `dirty` becomes true only if a cell was 1 (D32). -/
def execCls (s : State) : Host.Outcome State Fault Refusal :=
  .next (s.setCells Framebuffer.blank s.fb.anyLit).advance

/-- `RET` (R71). -/
def execRet (s : State) : Host.Outcome State Fault Refusal :=
  match s.pop with
  | some (a, t) => .next (t.goto a)
  | none => raise (.stackUnderflow s.pc)

/-- `SYS addr` (R72): the behaviour of an unknown word, DecodeFault with the word itself (D14). -/
def execSys (nnn : Addr) (_s : State) : Host.Outcome State Fault Refusal :=
  raise (.decodeFault (encodeWord (.sys nnn)))

/-- `JP addr` (R73). -/
def execJp (nnn : Addr) (s : State) : Host.Outcome State Fault Refusal :=
  .next (s.goto (zextAddr nnn))

/-- `JP V0, addr` (R74): the sum is not reduced (D23). -/
def execJpV0 (nnn : Addr) (s : State) : Host.Outcome State Fault Refusal :=
  .next (s.goto (zextAddr nnn + zextByte (s.reg 0)))

/-- `CALL addr` (R75). -/
def execCall (nnn : Addr) (s : State) : Host.Outcome State Fault Refusal :=
  match s.push (s.pc + 2) with
  | some t => .next (t.goto (zextAddr nnn))
  | none => raise (.stackOverflow s.pc)

/-- `SE Vx, byte` (R76). -/
def execSeByte (x : Reg) (nn : Byte) (s : State) : Host.Outcome State Fault Refusal :=
  .next (s.skipIf (s.reg x == nn))

/-- `SNE Vx, byte` (R77). -/
def execSneByte (x : Reg) (nn : Byte) (s : State) : Host.Outcome State Fault Refusal :=
  .next (s.skipIf (s.reg x != nn))

/-- `SE Vx, Vy` (R78). -/
def execSeReg (x y : Reg) (s : State) : Host.Outcome State Fault Refusal :=
  .next (s.skipIf (s.reg x == s.reg y))

/-- `SNE Vx, Vy` (R79). -/
def execSneReg (x y : Reg) (s : State) : Host.Outcome State Fault Refusal :=
  .next (s.skipIf (s.reg x != s.reg y))

end Sys2Proof.Machine
end

