-- ==== Sys2Proof/Machine/Draw.lean ====
section
/-! DEFINITION. `DRW` (R100 of 44_draw.md). -/

namespace Sys2Proof.Machine

/-- The drawing `DRW Vx, Vy, n` makes: the `n` bytes at `I` at column `V[x]` and row `V[y]`, both read before VF is
written (R100; D30). -/
def State.drawing (s : State) (x y : Reg) (n : Nibble) : Drawing :=
  s.fb.draw (s.reg x).toNat (s.reg y).toNat (s.mem.readBytes s.i.toNat n.toNat)

/-- The state after a drawing: the cells, `dirty` if one changed (D31), the collision flag in VF. -/
def State.finishDrawing (s : State) (d : Drawing) : State :=
  ((s.setCells d.fb d.changed).setFlag d.collision).advance

/-- `DRW Vx, Vy, nibble` (R100): with `n = 0` no byte is read and no fault is possible. -/
def execDrw (x y : Reg) (n : Nibble) (s : State) : Host.Outcome State Fault Refusal :=
  if n = 0#4 then .next (s.finishDrawing (s.drawing x y n))
  else withinMemory (s.i.toNat + n.toNat - 1) (s.finishDrawing (s.drawing x y n))

end Sys2Proof.Machine
end

