-- ==== Sys2Proof/Machine/Input.lean ====
section
/-! DEFINITION. The keypad instructions and the key-wait poll step of 45_input.md (R103 to R107). -/

namespace Sys2Proof.Machine

/-- `SKP Vx` (R103). -/
def execSkp (x : Reg) (s : State) : Host.Outcome State Fault Refusal :=
  .next (s.skipIf (s.keyHeld x))

/-- `SKNP Vx` (R104). -/
def execSknp (x : Reg) (s : State) : Host.Outcome State Fault Refusal :=
  .next (s.skipIf (!s.keyHeld x))

/-- `LD Vx, K`, the cycle that fetches it (R105): it suspends, and neither `PC` nor `V[x]` changes. -/
def execLdVxK (x : Reg) (s : State) : Host.Outcome State Fault Refusal :=
  .next (s.suspend x)

/-- The least key of a set, if it has one (R106; D28). -/
def leastKey (newly : Keys) : Option Reg :=
  Fin.find? fun k : Reg => newly.getLsbD k.val

/-- The keys pressed now and not at the previous poll (R106). -/
def State.newlyPressed (s : State) : Keys := s.keypad &&& ~~~s.keyPrev

/-- `KeyWaitPoll()` (R106): a new press completes the suspended instruction, otherwise the keypad is recorded. -/
def keyWaitPoll (s : State) : State :=
  match leastKey s.newlyPressed with
  | some k => (s.setReg s.waitReg (BitVec.ofNat 8 k.val)).resume.advance
  | none => s.recordKeys

end Sys2Proof.Machine
end

