-- ==== Sys2Proof/Machine/Moves.lean ====
section
/-! DEFINITION. The register and memory moves of 42_moves.md (R80 to R86). None changes `I` but those that name it. -/

namespace Sys2Proof.Machine

/-- `LD Vx, byte` (R80). -/
def execLdByte (x : Reg) (nn : Byte) (s : State) : Host.Outcome State Fault Refusal :=
  .next (s.setReg x nn).advance

/-- `LD Vx, Vy` (R81). -/
def execLdReg (x y : Reg) (s : State) : Host.Outcome State Fault Refusal :=
  .next (s.setReg x (s.reg y)).advance

/-- `LD I, addr` (R82). -/
def execLdI (nnn : Addr) (s : State) : Host.Outcome State Fault Refusal :=
  .next (s.setIndex (zextAddr nnn)).advance

/-- `LD [I], Vx` (R83): `V0` to `Vx` at `I` to `I + x`; `I` is unchanged (D24). -/
def execStoreRegs (x : Reg) (s : State) : Host.Outcome State Fault Refusal :=
  withinMemory (s.i.toNat + x.val) (s.storeBytes s.i.toNat (s.firstRegs x)).advance

/-- `LD Vx, [I]` (R84): `V0` to `Vx` from `I` to `I + x`; `I` is unchanged (D24). -/
def execLoadRegs (x : Reg) (s : State) : Host.Outcome State Fault Refusal :=
  withinMemory (s.i.toNat + x.val) (s.setFirstRegs (s.mem.readBytes s.i.toNat (x.val + 1))).advance

/-- `LD B, Vx` (R85). -/
def execLdB (x : Reg) (s : State) : Host.Outcome State Fault Refusal :=
  withinMemory (s.i.toNat + 2) (s.storeBytes s.i.toNat (decimalDigits (s.reg x))).advance

/-- `LD F, Vx` (R86). -/
def execLdF (x : Reg) (s : State) : Host.Outcome State Fault Refusal :=
  .next (s.setIndex (glyphAddress (lowNibble (s.reg x)))).advance

end Sys2Proof.Machine
end

