-- ==== Sys2Proof/Machine/Timers.lean ====
section
/-! DEFINITION. The timer instructions of 46_timers.md (R108 to R110). No instruction counts a timer down. -/

namespace Sys2Proof.Machine

/-- `LD Vx, DT` (R108). -/
def execLdVxDt (x : Reg) (s : State) : Host.Outcome State Fault Refusal :=
  .next (s.setReg x s.dt).advance

/-- `LD DT, Vx` (R109). -/
def execLdDtVx (x : Reg) (s : State) : Host.Outcome State Fault Refusal :=
  .next (s.setDt (s.reg x)).advance

/-- `LD ST, Vx` (R110). -/
def execLdStVx (x : Reg) (s : State) : Host.Outcome State Fault Refusal :=
  .next (s.setSt (s.reg x)).advance

end Sys2Proof.Machine
end

