-- ==== Sys2Proof/Machine/Cycle.lean ====
section
/-! DEFINITION. The instruction cycle of 40_cycle.md: guard, key-wait poll, fetch, decode, execute (R60 to R63). -/

namespace Sys2Proof.Machine

/-- The fetch (R61): the big-endian word at `PC`, or nothing when `PC + 1 > 0xFFF`. It changes no state. -/
def fetchWord (s : State) : Option Word :=
  if s.pc.toNat + 1 > Config.topAddress then none
  else some (wordOfBytes (s.mem.read s.pc.toNat) (s.mem.read (s.pc.toNat + 1)))

/-- `RunCycle` (R60): the order of its steps is the priority of its faults (R120). -/
def runCycle (s : State) : Host.Outcome State Fault Refusal :=
  if s.loaded = false then raise .programNotLoaded
  else if s.awaiting = true then .next (keyWaitPoll s)
  else
    match fetchWord s with
    | none => raise (.memoryOutOfBounds s.pc.toNat)
    | some w =>
      match decodeWord w with
      | none => raise (.decodeFault w)
      | some i => exec i s

end Sys2Proof.Machine
end

