-- ==== Sys2Proof/Machine/HostCommands.lean ====
section
/-! DEFINITION. The host's commands (R6): reset, load and start of 70_reset_and_hazards.md, the rest of
60_exceptions.md, and how a command's response and the state after it are told. -/

namespace Sys2Proof.Machine

/-- `SetDefaults` (R140): every field of the core takes its reset value. The model's own fields stay: the commands
that wait are not the core's, and a reset does not rewind the free bytes (logs 1 and 2). -/
def setDefaults (s : State) : State :=
  { State.reset with rndIndex := s.rndIndex, inbox := s.inbox }

/-- `Load` (R142): both checks come before any write. -/
def load (buf : Option (List Byte)) (s : State) : Host.Outcome State Fault Refusal :=
  match buf with
  | none => raise .invalidArgument
  | some bytes =>
    if bytes.length > Config.maxProg then raise (.programTooLarge bytes.length)
    else .next { s.storeBytes Config.progBase bytes with loaded := true, progLen := bytes.length }

/-- `Start` (R143): a guard that leaves no trace. -/
def start (s : State) : Host.Outcome State Fault Refusal :=
  if s.loaded = false then raise .programNotLoaded else .next s

/-- One decrement with the floor 0 (R127). -/
def countDown (b : Byte) : Byte := if b = 0#8 then 0#8 else b - 1#8

/-- `Tick` (R127): both timers, each on its own. -/
def tick (s : State) : State := (s.setDt (countDown s.dt)).setSt (countDown s.st)

/-- `SetKeys` (R128): the whole keypad is replaced and nothing else changes. -/
def setKeys (k : Keys) (s : State) : State := { s with keypad := k }

/-- `ClearDirty` (R132). -/
def clearDirty (s : State) : State := { s with dirty := false }

/-- The transition a command makes (R6). -/
def perform (c : Command) (s : State) : Host.Outcome State Fault Refusal :=
  match c with
  | .setDefaults => .next (setDefaults s)
  | .load buf => load buf s
  | .start => start s
  | .runCycle => runCycle s
  | .tick => .next (tick s)
  | .setKeys k => .next (setKeys k s)
  | .readTimers => .next s
  | .writeDT b => .next (s.setDt b)
  | .writeST b => .next (s.setSt b)
  | .readFramebuffer => .next s
  | .clearDirty => .next (clearDirty s)
  | .queryPC => .next s
  | .queryLoaded => .next s

/-- What a command returns when it succeeds (R6). -/
def answer (c : Command) (s : State) : Response :=
  match c with
  | .setDefaults => .ok
  | .load _ => .ok
  | .start => .ok
  | .runCycle => .ok
  | .tick => .ok
  | .setKeys _ => .ok
  | .readTimers => .timers s.dt s.st
  | .writeDT _ => .ok
  | .writeST _ => .ok
  | .readFramebuffer => .framebuffer s.fb.readOut s.dirty
  | .clearDirty => .ok
  | .queryPC => .pc s.pc
  | .queryLoaded => .loaded s.loaded

/-- A command served whole: its response and the state after it. A fault leaves the state bit for bit as it was,
and the host may go on (R121, R122). No command is ever refused by the model; were one, it would have no effect. -/
def serve (c : Command) (s : State) : Response × State :=
  match perform c s with
  | .next t => (answer c s, t)
  | .fault f => (.fault f, s)
  | .refused _ => (.ok, s)

/-- Commands served in the order of their arrival, going on after a fault (R5, R121). -/
def serveAll : List Command → State → List Response × State
  | [], s => ([], s)
  | c :: cs, s =>
    let r := serve c s
    let rest := serveAll cs r.2
    (r.1 :: rest.1, rest.2)

/-- The code of a fault (R115). -/
def Fault.code : Fault → Nat
  | .invalidArgument => 1
  | .programTooLarge _ => 2
  | .programNotLoaded => 3
  | .memoryOutOfBounds _ => 4
  | .stackOverflow _ => 5
  | .stackUnderflow _ => 6
  | .decodeFault _ => 7

/-- The oldest command that waits, or a RunCycle when none does (R5; log 2). -/
def serveNext (s : State) : Host.Outcome State Fault Refusal :=
  match s.inbox with
  | [] => runCycle s
  | c :: rest => perform c (s.setInbox rest)

end Sys2Proof.Machine
end

