-- ==== Sys2Proof/Machine/Step.lean ====
section
/-! DEFINITION. One step of the machine, and where the host places the word the next step runs. -/

namespace Sys2Proof.Machine

/-- One step: one command of the host, atomically (R5); with no command waiting, one RunCycle (log 2). A command
that faults ends the run (log 3). -/
def step (s : State) : Host.Outcome State Fault Refusal := serveNext s

/-- `s` with an instruction stored where the next step fetches (log 5). Every instruction is one 16-bit word, so the
bits of `w` at or above `nbits` or 16 are not there. -/
def State.withFetchWord (s : State) (nbits w : Nat) : State :=
  s.placeWord (BitVec.ofNat 16 (w % 2 ^ nbits))

end Sys2Proof.Machine
end

