-- ==== Sys2Proof/Safety.lean ====
section
/-! DEFINITION. The words claims are stated in: a safe run, the invariant of R26, what a transition leaves unchanged,
and the conditions of the spec that several statements share. -/

namespace Sys2Proof.Machine

/-! ## Safe runs -/

/-- No command of the first `k` has responded with a fault: the safety predicate of R121. -/
def SafeFor (k : Nat) (s : State) : Prop := ∃ t, Sys2Proof.core.run k s = .next t

/-! ## The invariant (R26) -/

/-- What holds in every state reachable from reset by any commands (R26), in a form that a step keeps: the bounds of
`PC`, of the live return addresses and of `prog_len`, and that memory is canonical, so that no address outside the
Memory Image is ever listed. `sp <= 16` and the ranges of the timers and cells are in the types. -/
structure StateInv (s : State) : Prop where
  /-- Memory is in canonical form and lists no address above 0xFFF (R26, R32). -/
  memory : s.mem.wf = true
  /-- `PC <= 0x10FE` (R13, R26). -/
  pc : s.pc.toNat ≤ 0x10FE
  /-- While a key is awaited `PC` is where `LD Vx, K` was fetched (R106). -/
  waitingPc : s.awaiting = true → s.pc.toNat ≤ 0xFFE
  /-- A key is awaited only in a loaded core: the cycle that suspends has passed the guard (R60, R105). -/
  waitingLoaded : s.awaiting = true → s.loaded = true
  /-- Every live return address is at most 0x1000 (R26). -/
  returns : ∀ j : Fin 16, j.val < s.sp.val → s.stack[j].toNat ≤ 0x1000
  /-- `prog_len <= 3584` (R20, R26). -/
  progLen : s.progLen ≤ 3584
  /-- Without a program loaded `prog_len` is 0 (R140, R142). -/
  unloaded : s.loaded = false → s.progLen = 0

/-! ## What a transition leaves unchanged -/

/-- The parts of the state. -/
inductive Part where
  | regs | index | pc | stack | keypad | dt | st | cells | dirty | loaded | progLen | keyWait | memory | draws | inbox
  deriving DecidableEq, Repr

/-- A part is the same in two states; memory by its reads, byte by byte. -/
def Part.same (p : Part) (s t : State) : Prop :=
  match p with
  | .regs => ∀ r, t.reg r = s.reg r
  | .index => t.i = s.i
  | .pc => t.pc = s.pc
  | .stack => t.sp = s.sp ∧ t.stack = s.stack
  | .keypad => t.keypad = s.keypad
  | .dt => t.dt = s.dt
  | .st => t.st = s.st
  | .cells => ∀ x y, t.fb.cell x y = s.fb.cell x y
  | .dirty => t.dirty = s.dirty
  | .loaded => t.loaded = s.loaded
  | .progLen => t.progLen = s.progLen
  | .keyWait => t.awaiting = s.awaiting ∧ t.waitReg = s.waitReg ∧ t.keyPrev = s.keyPrev
  | .memory => ∀ a, t.mem.read a = s.mem.read a
  | .draws => t.rndIndex = s.rndIndex
  | .inbox => t.inbox = s.inbox

/-- Every part but the listed ones is the same in both states. -/
def KeepsAllBut (changed : List Part) (s t : State) : Prop := ∀ p, p ∉ changed → p.same s t

/-- Every register but those of `changed` is the same in both states. -/
def KeepsRegsBut (changed : List Reg) (s t : State) : Prop := ∀ r, r ∉ changed → t.reg r = s.reg r

/-- Every byte outside the `n` bytes at `a` reads the same in both states. -/
def KeepsMemoryOutside (a n : Nat) (s t : State) : Prop :=
  ∀ c, ¬(a ≤ c ∧ c < a + n) → t.mem.read c = s.mem.read c

/-! ## Conditions of the spec -/

/-- The word at `PC`, by the bytes the spec reads (R33, R61). -/
def wordAtPc (s : State) : Word := wordOfBytes (s.mem.read s.pc.toNat) (s.mem.read (s.pc.toNat + 1))

/-- `RunCycle` gets as far as executing the instruction: loaded, not awaiting a key, and `PC` can be fetched from
(R60). -/
def CanFetch (s : State) : Prop := s.loaded = true ∧ s.awaiting = false ∧ s.pc.toNat + 1 ≤ 0xFFF

/-- The one fault each instruction can raise, and when (R117, R118, R119, R120): all others raise none. -/
def FaultsWith (i : Instr) (s : State) (f : Fault) : Prop :=
  match i with
  | .sys nnn => f = .decodeFault (nnn.setWidth 16)
  | .ret => s.sp.val = 0 ∧ f = .stackUnderflow s.pc
  | .call _ => s.sp.val = 16 ∧ f = .stackOverflow s.pc
  | .storeRegs x => s.i.toNat + x.val > 0xFFF ∧ f = .memoryOutOfBounds (s.i.toNat + x.val)
  | .loadRegs x => s.i.toNat + x.val > 0xFFF ∧ f = .memoryOutOfBounds (s.i.toNat + x.val)
  | .ldB _ => s.i.toNat + 2 > 0xFFF ∧ f = .memoryOutOfBounds (s.i.toNat + 2)
  | .drw _ _ n =>
    n.toNat > 0 ∧ s.i.toNat + n.toNat - 1 > 0xFFF ∧ f = .memoryOutOfBounds (s.i.toNat + n.toNat - 1)
  | _ => False

/-- Whether `DRW Vx, Vy, n` has a 1 bit of the sprite over a cell: row `r` of the sprite is the byte at `I + r`, bit
7 leftmost, and both axes wrap (R100). -/
def spriteCovers (s : State) (x y : Reg) (n : Nibble) (cx : Fin 64) (cy : Fin 32) : Prop :=
  ∃ r c : Nat, r < n.toNat ∧ c < 8 ∧ cx.val = ((s.reg x).toNat + c) % 64 ∧ cy.val = ((s.reg y).toNat + r) % 32 ∧
    (s.mem.read (s.i.toNat + r)).getLsbD (7 - c) = true

/-- `PC` after an instruction that has completed, by the table of R63, as a number; `ret` takes the popped entry. -/
def pcAfter (i : Instr) (s : State) : Nat :=
  match i with
  | .jp nnn => nnn.toNat
  | .jpV0 nnn => (nnn.toNat + (s.reg 0).toNat) % 65536
  | .call nnn => nnn.toNat
  | .ret => (s.stack.toList.getD (s.sp.val - 1) 0).toNat
  | .seByte x nn => (s.pc.toNat + if s.reg x = nn then 4 else 2) % 65536
  | .sneByte x nn => (s.pc.toNat + if s.reg x ≠ nn then 4 else 2) % 65536
  | .seReg x y => (s.pc.toNat + if s.reg x = s.reg y then 4 else 2) % 65536
  | .sneReg x y => (s.pc.toNat + if s.reg x ≠ s.reg y then 4 else 2) % 65536
  | .skp x => (s.pc.toNat + if s.keypad.getLsbD ((s.reg x).toNat % 16) = true then 4 else 2) % 65536
  | .sknp x => (s.pc.toNat + if s.keypad.getLsbD ((s.reg x).toNat % 16) = false then 4 else 2) % 65536
  | .ldVxK _ => s.pc.toNat
  | _ => (s.pc.toNat + 2) % 65536

/-- The registers an instruction may write: its destination, and VF where it sets a flag (R27 and the rules of 41
to 46). -/
def mayWriteReg (i : Instr) (r : Reg) : Prop :=
  match i with
  | .ldByte x _ => r = x
  | .ldReg x _ => r = x
  | .addByte x _ => r = x
  | .orReg x _ => r = x
  | .andReg x _ => r = x
  | .xorReg x _ => r = x
  | .rnd x _ => r = x
  | .ldVxDt x => r = x
  | .loadRegs x => r ≤ x
  | .addReg x _ => r = x ∨ r = vf
  | .subReg x _ => r = x ∨ r = vf
  | .subnReg x _ => r = x ∨ r = vf
  | .shr x _ => r = x ∨ r = vf
  | .shl x _ => r = x ∨ r = vf
  | .drw _ _ _ => r = vf
  | _ => False

end Sys2Proof.Machine
end

