-- ==== Sys2Proof/Certificates/Slice0/Obligations.lean ====
section
/-! DEFINITION. The statements for the provers, each formalising rules of spec/ (the ids, rules and quotes are in
OBLIGATIONS.json). Where a clause rests on a decision the spec marks as its own (Dn of 92_eei_decisions.md), or on a
choice of this model (log n), the docstring says so. -/

open Sys2Proof Sys2Proof.Machine

/-! ## Encoding -/

/-- Decoding the bytes of a well-formed instruction gives it back and consumes exactly its two bytes, for every value
of every operand (R46 to R51; the bit patterns are general knowledge by the spec's mark, log 8). -/
def Obligations.DecodeInvertsEncode : Prop :=
  ∀ (i : Instr) (rest : List Byte), i.wellFormed = true → decode (encode i ++ rest) = .ok (i, rest)

/-- A word that decodes is the encoding of the instruction it decodes to, which is well formed, and it selects that
instruction's row of the opcode table: no word has two meanings (R50, R51; log 8). -/
def Obligations.DecodedWordIsItsEncoding : Prop :=
  ∀ (w : Word) (i : Instr), decodeWord w = some i →
    i.wellFormed = true ∧ encodeWord i = w ∧ w &&& i.row.mask = i.row.pattern

/-- The illegal words are exactly those of R52's table (D12 for families 5 and 9; log 8). -/
def Obligations.IllegalWordsAreTheListedOnes : Prop :=
  ∀ w : Word, decodeWord w = none ↔
    (w.toNat / 4096 = 5 ∧ w.toNat % 16 ≠ 0) ∨
    (w.toNat / 4096 = 8 ∧ w.toNat % 16 ∈ [0x8, 0x9, 0xA, 0xB, 0xC, 0xD, 0xF]) ∨
    (w.toNat / 4096 = 9 ∧ w.toNat % 16 ≠ 0) ∨
    (w.toNat / 4096 = 14 ∧ w.toNat % 256 ∉ [0x9E, 0xA1]) ∨
    (w.toNat / 4096 = 15 ∧ w.toNat % 256 ∉ [0x07, 0x0A, 0x15, 0x18, 0x1E, 0x29, 0x33, 0x55, 0x65])

/-- One word of each family of the opcode table, written out from R51, decodes to the instruction it stands for, for
every register number that stands in its `x` field. -/
def Obligations.TableWordsDecode : Prop :=
  ∀ k : Fin 16,
    decodeWord 0x00E0#16 = some .cls ∧ decodeWord 0x00EE#16 = some .ret ∧
    decodeWord 0x0ABC#16 = some (.sys 0xABC#12) ∧ decodeWord 0x1ABC#16 = some (.jp 0xABC#12) ∧
    decodeWord (BitVec.ofNat 16 (0x602C + 256 * k.val)) = some (.ldByte k 0x2C#8) ∧
    decodeWord (BitVec.ofNat 16 (0x8024 + 256 * k.val)) = some (.addReg k 2) ∧
    decodeWord (BitVec.ofNat 16 (0xD025 + 256 * k.val)) = some (.drw k 2 5#4) ∧
    decodeWord (BitVec.ofNat 16 (0xE09E + 256 * k.val)) = some (.skp k) ∧
    decodeWord (BitVec.ofNat 16 (0xF00A + 256 * k.val)) = some (.ldVxK k) ∧
    decodeWord (BitVec.ofNat 16 (0xF015 + 256 * k.val)) = some (.ldDtVx k) ∧
    decodeWord (BitVec.ofNat 16 (0xF055 + 256 * k.val)) = some (.storeRegs k)

/-! ## Fetch, cycle, step -/

/-- The fetch is the big-endian word of the two bytes at `PC`, and there is none exactly when `PC + 1 > 0xFFF`; a
cycle that would fetch there faults with `PC`, whatever `PC` is, odd or even. -/
def Obligations.FetchReadsTwoBytesBigEndian : Prop :=
  ∀ s : State,
    (fetchWord s = none ↔ s.pc.toNat ≥ 0xFFF) ∧
    (∀ w, fetchWord s = some w →
      w.toNat = (s.mem.read s.pc.toNat).toNat * 256 + (s.mem.read (s.pc.toNat + 1)).toNat) ∧
    (s.loaded = true → s.awaiting = false → s.pc.toNat ≥ 0xFFF →
      runCycle s = .fault (.memoryOutOfBounds s.pc.toNat))

/-- When the two bytes at `PC` decode to an instruction, a step of a loaded core that awaits no key is that
instruction's execution: with no command waiting (log 2), and with RunCycle the oldest command that waits. -/
def Obligations.StepRunsTheDecodedInstruction : Prop :=
  ∀ (s : State) (i : Instr) (rest : List Byte), s.loaded = true → s.awaiting = false → s.pc.toNat + 1 ≤ 0xFFF →
    decode [s.mem.read s.pc.toNat, s.mem.read (s.pc.toNat + 1)] = .ok (i, rest) →
    (s.inbox = [] → step s = exec i s) ∧
    (∀ q, s.inbox = .runCycle :: q → step s = exec i (s.setInbox q))

/-- The order of a cycle's checks: the loaded guard, then the key-wait poll, then the fetch bound, then the decode, then
the instruction (R60, R120; D5, D13 and D37 of the spec). -/
def Obligations.CycleChecksInOrder : Prop :=
  ∀ s : State,
    (s.loaded = false → runCycle s = .fault .programNotLoaded) ∧
    (s.loaded = true → s.awaiting = true → runCycle s = .next (keyWaitPoll s)) ∧
    (s.loaded = true → s.awaiting = false → s.pc.toNat + 1 > 0xFFF →
      runCycle s = .fault (.memoryOutOfBounds s.pc.toNat)) ∧
    (CanFetch s → decodeWord (wordAtPc s) = none → runCycle s = .fault (.decodeFault (wordAtPc s))) ∧
    (∀ i, CanFetch s → decodeWord (wordAtPc s) = some i → runCycle s = exec i s)

/-- An instruction faults exactly when and as the spec says, it is never refused, and so it completes everywhere
else (R117 to R120, R72; D3, D11, D14 of the spec). -/
def Obligations.InstructionsFaultExactlyWhereStated : Prop :=
  ∀ (i : Instr) (s : State),
    (∀ f, exec i s = .fault f ↔ FaultsWith i s f) ∧ (∀ r, exec i s ≠ .refused r) ∧
    ((∀ f, ¬FaultsWith i s f) → ∃ t, exec i s = .next t)

/-- MemoryOutOfBounds is raised in exactly the places of R117, with the address R117 names: the fetch of a RunCycle at
`PC + 1 > 0xFFF`, and its four memory instructions; by no other instruction and by no other command. -/
def Obligations.MemoryOutOfBoundsInExactlyThesePlaces : Prop :=
  ∀ (c : Command) (s : State) (a : Nat),
    perform c s = .fault (.memoryOutOfBounds a) ↔
      c = .runCycle ∧ s.loaded = true ∧ s.awaiting = false ∧
      ((s.pc.toNat + 1 > 0xFFF ∧ a = s.pc.toNat) ∨
       (s.pc.toNat + 1 ≤ 0xFFF ∧ ∃ x y : Reg, ∃ n : Nibble,
         (decodeWord (wordAtPc s) = some (.storeRegs x) ∧ s.i.toNat + x.val > 0xFFF ∧ a = s.i.toNat + x.val) ∨
         (decodeWord (wordAtPc s) = some (.loadRegs x) ∧ s.i.toNat + x.val > 0xFFF ∧ a = s.i.toNat + x.val) ∨
         (decodeWord (wordAtPc s) = some (.ldB x) ∧ s.i.toNat + 2 > 0xFFF ∧ a = s.i.toNat + 2) ∨
         (decodeWord (wordAtPc s) = some (.drw x y n) ∧ n.toNat > 0 ∧ s.i.toNat + n.toNat - 1 > 0xFFF ∧
           a = s.i.toNat + n.toNat - 1)))

/-- A command that faults leaves the state as it was, and the same command then faults the same way (R121; D3 of the
spec; log 3). -/
def Obligations.FaultLeavesStateAndRepeats : Prop :=
  ∀ (c : Command) (s t : State) (f : Fault), serve c s = (.fault f, t) → t = s ∧ serve c t = (.fault f, t)

/-! ## Memory -/

/-- Two memories in canonical form that read alike at every address are equal as data (the model's own representation
of the Memory Image, log 7). -/
def Obligations.CanonicalMemoriesAreEqualByReads : Prop :=
  ∀ m n : Memory, m.wf = true → n.wf = true → (∀ a, m.read a = n.read a) → m = n

/-- A store is seen by the next fetch: when `LD [I], Vx` has covered the two bytes of the instruction after it, the
next fetch is the word of the two registers stored there (R40; derived by the spec's own mark). -/
def Obligations.StoreIsSeenByTheNextFetch : Prop :=
  ∀ (x j k : Reg) (s : State), k.val = j.val + 1 → k ≤ x → s.pc.toNat + 3 ≤ 0xFFF →
    s.i.toNat + j.val = s.pc.toNat + 2 → s.i.toNat + x.val ≤ 0xFFF →
    ∃ t, exec (.storeRegs x) s = .next t ∧ fetchWord t = some (wordOfBytes (s.reg j) (s.reg k))

/-! ## Reset and the invariant -/

/-- The state after reset (R24): every field at its reset value, with the font of R25 at 0x050 to 0x09F and 0
elsewhere (D6, D38 and D40 of the spec; log 7). It says nothing of the model's own two fields. -/
def Obligations.ResetValues : Prop :=
  (∀ r, State.reset.reg r = 0) ∧ State.reset.i = 0 ∧ State.reset.pc = 0x200 ∧ State.reset.sp = 0 ∧
  (∀ j : Fin 16, State.reset.stack[j] = 0) ∧ State.reset.keypad = 0 ∧ State.reset.dt = 0 ∧ State.reset.st = 0 ∧
  (∀ x y, State.reset.fb.cell x y = false) ∧ State.reset.dirty = false ∧ State.reset.loaded = false ∧
  State.reset.progLen = 0 ∧ State.reset.awaiting = false ∧ State.reset.waitReg = 0 ∧ State.reset.keyPrev = 0 ∧
  (∀ k < 80, State.reset.mem.read (0x50 + k) = fontData.getD k 0) ∧
  (∀ a, a < 0x50 ∨ 0xA0 ≤ a → State.reset.mem.read a = 0)

/-- The invariant of R26 holds after reset. -/
def Obligations.ResetMeetsTheInvariant : Prop := StateInv State.reset

/-- Every step keeps the invariant of R26, from every state that meets it, whatever commands wait. -/
def Obligations.EveryStepKeepsTheInvariant : Prop :=
  ∀ s t : State, StateInv s → step s = .next t → StateInv t

/-! ## Control flow -/

/-- `CLS` (R70): all cells 0, `dirty` set when a cell was 1 and otherwise kept (D32 of the spec), `PC + 2`. -/
def Obligations.ClearScreen : Prop :=
  ∀ s : State, ∃ t, exec .cls s = .next t ∧ (∀ x y, t.fb.cell x y = false) ∧
    (t.dirty = true ↔ s.dirty = true ∨ ∃ x y, s.fb.cell x y = true) ∧
    t.pc = s.pc + 2 ∧ KeepsAllBut [.cells, .dirty, .pc] s t

/-- `RET` (R71): with the stack empty StackUnderflow; otherwise `sp` goes down by one and `PC` is the entry it then
names. That the vacated entry and those above it keep their values is this model's choice: they are no architectural
state (R14, D9 of the spec; log 6). -/
def Obligations.ReturnPopsIntoPc : Prop :=
  ∀ s : State,
    (s.sp.val = 0 → exec .ret s = .fault (.stackUnderflow s.pc)) ∧
    (∀ j : Fin 16, s.sp.val = j.val + 1 →
      ∃ t, exec .ret s = .next t ∧ t.sp.val = j.val ∧ t.pc = s.stack[j] ∧ t.stack = s.stack ∧
        KeepsAllBut [.stack, .pc] s t)

/-- `CALL addr` (R75): with 16 addresses held StackOverflow; otherwise `PC + 2` is pushed and `PC` is the target. That
the entries above the one pushed keep their values is this model's choice: they are no architectural state (R14, D9 of
the spec; log 6). -/
def Obligations.CallPushesAndJumps : Prop :=
  ∀ (nnn : Addr) (s : State),
    (s.sp.val = 16 → exec (.call nnn) s = .fault (.stackOverflow s.pc)) ∧
    (∀ j : Fin 16, s.sp.val = j.val →
      ∃ t, exec (.call nnn) s = .next t ∧ t.sp.val = s.sp.val + 1 ∧ t.stack[j] = s.pc + 2 ∧
        (∀ k : Fin 16, k ≠ j → t.stack[k] = s.stack[k]) ∧ t.pc.toNat = nnn.toNat ∧
        KeepsAllBut [.stack, .pc] s t)

/-- A `RET` executed after a `CALL` comes back to the instruction after the `CALL`, with the depth and the live
entries of the stack and everything but `PC` as they were (R14, R71, R75). -/
def Obligations.ReturnUndoesCall : Prop :=
  ∀ (nnn : Addr) (s : State), s.sp.val < 16 →
    ∃ t u, exec (.call nnn) s = .next t ∧ exec .ret t = .next u ∧ u.pc = s.pc + 2 ∧ u.sp = s.sp ∧
      (∀ j : Fin 16, j.val < s.sp.val → u.stack[j] = s.stack[j]) ∧ KeepsAllBut [.stack, .pc] s u

/-- `SYS addr` (R72) raises DecodeFault with its word in every state; it is not a no-op (D14 of the spec). -/
def Obligations.SysFaults : Prop :=
  ∀ (nnn : Addr) (s : State), exec (.sys nnn) s = .fault (.decodeFault (nnn.setWidth 16))

/-- `JP addr` (R73): `PC` is the zero-extended address and nothing else changes. -/
def Obligations.JumpSetsPc : Prop :=
  ∀ (nnn : Addr) (s : State), ∃ t, exec (.jp nnn) s = .next t ∧ t.pc.toNat = nnn.toNat ∧ KeepsAllBut [.pc] s t

/-- `JP V0, addr` (R74): `PC` is the sum with `V0`, not reduced modulo 4096 (D23 of the spec). -/
def Obligations.JumpWithOffsetAddsV0 : Prop :=
  ∀ (nnn : Addr) (s : State), ∃ t, exec (.jpV0 nnn) s = .next t ∧
    t.pc.toNat = nnn.toNat + (s.reg 0).toNat ∧ KeepsAllBut [.pc] s t

/-- The four compare-and-skip instructions (R76 to R79): `PC + 4` when the condition holds, else `PC + 2`. -/
def Obligations.CompareSkips : Prop :=
  ∀ (x y : Reg) (nn : Byte) (s : State),
    (∃ t, exec (.seByte x nn) s = .next t ∧
      t.pc = (if s.reg x = nn then s.pc + 4 else s.pc + 2) ∧ KeepsAllBut [.pc] s t) ∧
    (∃ t, exec (.sneByte x nn) s = .next t ∧
      t.pc = (if s.reg x ≠ nn then s.pc + 4 else s.pc + 2) ∧ KeepsAllBut [.pc] s t) ∧
    (∃ t, exec (.seReg x y) s = .next t ∧
      t.pc = (if s.reg x = s.reg y then s.pc + 4 else s.pc + 2) ∧ KeepsAllBut [.pc] s t) ∧
    (∃ t, exec (.sneReg x y) s = .next t ∧
      t.pc = (if s.reg x ≠ s.reg y then s.pc + 4 else s.pc + 2) ∧ KeepsAllBut [.pc] s t)

/-! ## Moves -/

/-- `LD Vx, byte` and `LD Vx, Vy` (R80, R81): `V[x]` is the immediate, or the old `V[y]`. -/
def Obligations.LoadRegister : Prop :=
  ∀ (x y : Reg) (nn : Byte) (s : State),
    (∃ t, exec (.ldByte x nn) s = .next t ∧ t.reg x = nn ∧ t.pc = s.pc + 2 ∧ KeepsRegsBut [x] s t ∧
      KeepsAllBut [.regs, .pc] s t) ∧
    (∃ t, exec (.ldReg x y) s = .next t ∧ t.reg x = s.reg y ∧ t.pc = s.pc + 2 ∧ KeepsRegsBut [x] s t ∧
      KeepsAllBut [.regs, .pc] s t)

/-- `LD I, addr` (R82): `I` is the zero-extended address. -/
def Obligations.LoadIndex : Prop :=
  ∀ (nnn : Addr) (s : State), ∃ t, exec (.ldI nnn) s = .next t ∧ t.i.toNat = nnn.toNat ∧ t.pc = s.pc + 2 ∧
    KeepsAllBut [.index, .pc] s t

/-- `LD [I], Vx` (R83): `V0` to `Vx` go to `I` to `I + x`, and `I` is unchanged (D24 of the spec); with `I + x` above
0xFFF it faults and no byte is stored (D11). -/
def Obligations.StoreRegistersAtIndex : Prop :=
  ∀ (x : Reg) (s : State),
    (s.i.toNat + x.val > 0xFFF → exec (.storeRegs x) s = .fault (.memoryOutOfBounds (s.i.toNat + x.val))) ∧
    (s.i.toNat + x.val ≤ 0xFFF → ∃ t, exec (.storeRegs x) s = .next t ∧
      (∀ r : Reg, r ≤ x → t.mem.read (s.i.toNat + r.val) = s.reg r) ∧
      KeepsMemoryOutside s.i.toNat (x.val + 1) s t ∧ t.pc = s.pc + 2 ∧ KeepsAllBut [.memory, .pc] s t)

/-- `LD Vx, [I]` (R84): `V0` to `Vx` come from `I` to `I + x`, the registers above `x` keep their values, and `I` is
unchanged (D24 of the spec); with `I + x` above 0xFFF it faults (D11). -/
def Obligations.LoadRegistersFromIndex : Prop :=
  ∀ (x : Reg) (s : State),
    (s.i.toNat + x.val > 0xFFF → exec (.loadRegs x) s = .fault (.memoryOutOfBounds (s.i.toNat + x.val))) ∧
    (s.i.toNat + x.val ≤ 0xFFF → ∃ t, exec (.loadRegs x) s = .next t ∧
      (∀ r : Reg, r ≤ x → t.reg r = s.mem.read (s.i.toNat + r.val)) ∧
      (∀ r : Reg, x < r → t.reg r = s.reg r) ∧ t.pc = s.pc + 2 ∧ KeepsAllBut [.regs, .pc] s t)

/-- `LD B, Vx` (R85): the three stored bytes are digits 0 to 9, the hundreds digit lowest (D25 of the spec), and they
make up the value of `V[x]`; with `I + 2` above 0xFFF it faults (D11). -/
def Obligations.StoreDecimalDigits : Prop :=
  ∀ (x : Reg) (s : State),
    (s.i.toNat + 2 > 0xFFF → exec (.ldB x) s = .fault (.memoryOutOfBounds (s.i.toNat + 2))) ∧
    (s.i.toNat + 2 ≤ 0xFFF → ∃ t, exec (.ldB x) s = .next t ∧
      (∀ k < 3, (t.mem.read (s.i.toNat + k)).toNat ≤ 9) ∧
      (t.mem.read s.i.toNat).toNat * 100 + (t.mem.read (s.i.toNat + 1)).toNat * 10 +
        (t.mem.read (s.i.toNat + 2)).toNat = (s.reg x).toNat ∧
      KeepsMemoryOutside s.i.toNat 3 s t ∧ t.pc = s.pc + 2 ∧ KeepsAllBut [.memory, .pc] s t)

/-- `LD F, Vx` (R86): `I` is the address of the glyph of the low nibble of `V[x]` (D26 of the spec), in 0x050 to
0x09B. -/
def Obligations.PointIndexAtGlyph : Prop :=
  ∀ (x : Reg) (s : State), ∃ t, exec (.ldF x) s = .next t ∧
    t.i.toNat = 0x050 + 5 * ((s.reg x).toNat % 16) ∧ t.i.toNat ≤ 0x09B ∧ t.pc = s.pc + 2 ∧
    KeepsAllBut [.index, .pc] s t

/-! ## Arithmetic and logic -/

/-- `ADD Vx, byte` (R88): the sum modulo 256 and no flag, VF included unless it is `x` (D17 of the spec). -/
def Obligations.AddImmediateSetsNoFlag : Prop :=
  ∀ (x : Reg) (nn : Byte) (s : State), ∃ t, exec (.addByte x nn) s = .next t ∧
    (t.reg x).toNat = ((s.reg x).toNat + nn.toNat) % 256 ∧ KeepsRegsBut [x] s t ∧ t.pc = s.pc + 2 ∧
    KeepsAllBut [.regs, .pc] s t

/-- `ADD I, Vx` (R89): the sum modulo 65536 and no flag (D22 of the spec). -/
def Obligations.AddToIndexWrapsAt16Bits : Prop :=
  ∀ (x : Reg) (s : State), ∃ t, exec (.addI x) s = .next t ∧
    t.i.toNat = (s.i.toNat + (s.reg x).toNat) % 65536 ∧ t.pc = s.pc + 2 ∧ KeepsAllBut [.index, .pc] s t

/-- `ADD Vx, Vy` (R90): the sum modulo 256 in `V[x]` and the carry out in VF; with `x = 0xF` VF ends as the carry. -/
def Obligations.AddRegistersSetsCarry : Prop :=
  ∀ (x y : Reg) (s : State), ∃ t, exec (.addReg x y) s = .next t ∧
    (x ≠ vf → (t.reg x).toNat = ((s.reg x).toNat + (s.reg y).toNat) % 256) ∧
    t.reg vf = (if (s.reg x).toNat + (s.reg y).toNat > 255 then 1 else 0) ∧
    KeepsRegsBut [x, vf] s t ∧ t.pc = s.pc + 2 ∧ KeepsAllBut [.regs, .pc] s t

/-- `SUB` and `SUBN` (R91, R92): the difference modulo 256 in `V[x]`, and in VF 1 when there is no borrow (D19 of the
spec); with `x = 0xF` VF ends as the flag (D18). -/
def Obligations.SubtractionsSetNoBorrow : Prop :=
  ∀ (x y : Reg) (s : State),
    (∃ t, exec (.subReg x y) s = .next t ∧
      (x ≠ vf → (t.reg x).toNat = ((s.reg x).toNat + 256 - (s.reg y).toNat) % 256) ∧
      t.reg vf = (if (s.reg x).toNat ≥ (s.reg y).toNat then 1 else 0) ∧
      KeepsRegsBut [x, vf] s t ∧ t.pc = s.pc + 2 ∧ KeepsAllBut [.regs, .pc] s t) ∧
    (∃ t, exec (.subnReg x y) s = .next t ∧
      (x ≠ vf → (t.reg x).toNat = ((s.reg y).toNat + 256 - (s.reg x).toNat) % 256) ∧
      t.reg vf = (if (s.reg y).toNat ≥ (s.reg x).toNat then 1 else 0) ∧
      KeepsRegsBut [x, vf] s t ∧ t.pc = s.pc + 2 ∧ KeepsAllBut [.regs, .pc] s t)

/-- `OR`, `AND`, `XOR` (R93 to R95), bit by bit; VF is not written as a flag (D20 of the spec). -/
def Obligations.LogicBitByBit : Prop :=
  ∀ (x y : Reg) (s : State),
    (∃ t, exec (.orReg x y) s = .next t ∧
      (∀ j < 8, (t.reg x).getLsbD j = ((s.reg x).getLsbD j || (s.reg y).getLsbD j)) ∧
      KeepsRegsBut [x] s t ∧ t.pc = s.pc + 2 ∧ KeepsAllBut [.regs, .pc] s t) ∧
    (∃ t, exec (.andReg x y) s = .next t ∧
      (∀ j < 8, (t.reg x).getLsbD j = ((s.reg x).getLsbD j && (s.reg y).getLsbD j)) ∧
      KeepsRegsBut [x] s t ∧ t.pc = s.pc + 2 ∧ KeepsAllBut [.regs, .pc] s t) ∧
    (∃ t, exec (.xorReg x y) s = .next t ∧
      (∀ j < 8, (t.reg x).getLsbD j = ((s.reg x).getLsbD j != (s.reg y).getLsbD j)) ∧
      KeepsRegsBut [x] s t ∧ t.pc = s.pc + 2 ∧ KeepsAllBut [.regs, .pc] s t)

/-- `SHR` and `SHL` (R96, R97): `V[x]` halved, or doubled modulo 256, and the bit shifted out in VF; `V[y]` is not
read (D21 of the spec); with `x = 0xF` VF ends as the bit (D18). -/
def Obligations.ShiftsCaptureTheBitShiftedOut : Prop :=
  ∀ (x y : Reg) (s : State),
    (∃ t, exec (.shr x y) s = .next t ∧ (x ≠ vf → (t.reg x).toNat = (s.reg x).toNat / 2) ∧
      (t.reg vf).toNat = (s.reg x).toNat % 2 ∧
      KeepsRegsBut [x, vf] s t ∧ t.pc = s.pc + 2 ∧ KeepsAllBut [.regs, .pc] s t) ∧
    (∃ t, exec (.shl x y) s = .next t ∧ (x ≠ vf → (t.reg x).toNat = (s.reg x).toNat * 2 % 256) ∧
      (t.reg vf).toNat = (s.reg x).toNat / 128 ∧
      KeepsRegsBut [x, vf] s t ∧ t.pc = s.pc + 2 ∧ KeepsAllBut [.regs, .pc] s t)

/-- `RND Vx, byte` (R98): the free byte of this cycle, whatever it is, masked by the immediate: every bit that is 0 in
`nn` is 0 in the result (D29 of the spec; log 1), and the next RND takes the next free byte. -/
def Obligations.RandomByteIsMasked : Prop :=
  ∀ (x : Reg) (nn : Byte) (s : State), ∃ t, exec (.rnd x nn) s = .next t ∧
    (∀ j < 8, (t.reg x).getLsbD j = ((Config.rnd s.rndIndex).getLsbD j && nn.getLsbD j)) ∧
    t.rndIndex = s.rndIndex + 1 ∧ KeepsRegsBut [x] s t ∧ t.pc = s.pc + 2 ∧ KeepsAllBut [.regs, .pc, .draws] s t

/-! ## Drawing -/

/-- `DRW Vx, Vy, n` (R100), in closed form: exactly the cells under a 1 bit of the sprite are inverted, both axes
wrapping; VF is 1 when one of them was 1; `dirty` is set when one of them exists and otherwise kept; a range above
0xFFF faults, and with `n = 0` nothing is drawn and VF is 0 (D11, D30 and D31 of the spec). -/
def Obligations.DrawInvertsTheCoveredCells : Prop :=
  ∀ (x y : Reg) (n : Nibble) (s : State),
    (n ≠ 0#4 → s.i.toNat + n.toNat - 1 > 0xFFF →
      exec (.drw x y n) s = .fault (.memoryOutOfBounds (s.i.toNat + n.toNat - 1))) ∧
    ((n ≠ 0#4 → s.i.toNat + n.toNat - 1 ≤ 0xFFF) → ∃ t, exec (.drw x y n) s = .next t ∧
      (∀ cx cy, t.fb.cell cx cy = true ↔
        (s.fb.cell cx cy = true ∧ ¬spriteCovers s x y n cx cy) ∨
        (s.fb.cell cx cy = false ∧ spriteCovers s x y n cx cy)) ∧
      (t.reg vf = 0 ∨ t.reg vf = 1) ∧
      (t.reg vf = 1 ↔ ∃ cx cy, spriteCovers s x y n cx cy ∧ s.fb.cell cx cy = true) ∧
      (t.dirty = true ↔ s.dirty = true ∨ ∃ cx cy, spriteCovers s x y n cx cy) ∧
      KeepsRegsBut [vf] s t ∧ t.pc = s.pc + 2 ∧ KeepsAllBut [.regs, .cells, .dirty, .pc] s t)

/-- The XOR property (R102): the same `DRW` twice, at a location that the first does not move (neither `x` nor `y` is
VF), restores every cell, and the second draw's VF is 1 if the first set a cell. -/
def Obligations.DrawingTwiceRestoresTheScreen : Prop :=
  ∀ (x y : Reg) (n : Nibble) (s t : State), x ≠ vf → y ≠ vf → exec (.drw x y n) s = .next t →
    ∃ u, exec (.drw x y n) t = .next u ∧ (∀ cx cy, u.fb.cell cx cy = s.fb.cell cx cy) ∧
      ((∃ cx cy, s.fb.cell cx cy = false ∧ t.fb.cell cx cy = true) → u.reg vf = 1)

/-- The framebuffer state machine for instructions (R101): only `DRW` and `CLS` change a cell, and an instruction sets
`dirty` exactly when it has changed a cell and otherwise keeps it (D31 and D32 of the spec). -/
def Obligations.DirtyTracksChangedCells : Prop :=
  ∀ (i : Instr) (s t : State), exec i s = .next t →
    ((∀ x y n, i ≠ .drw x y n) → i ≠ .cls → ∀ cx cy, t.fb.cell cx cy = s.fb.cell cx cy) ∧
    (t.dirty = true ↔ s.dirty = true ∨ ∃ cx cy, t.fb.cell cx cy ≠ s.fb.cell cx cy)

/-! ## Input -/

/-- `SKP` and `SKNP` (R103, R104): the key tested is the low nibble of `V[x]` (D27 of the spec). -/
def Obligations.KeySkips : Prop :=
  ∀ (x : Reg) (s : State),
    (∃ t, exec (.skp x) s = .next t ∧
      t.pc = (if s.keypad.getLsbD ((s.reg x).toNat % 16) = true then s.pc + 4 else s.pc + 2) ∧
      KeepsAllBut [.pc] s t) ∧
    (∃ t, exec (.sknp x) s = .next t ∧
      t.pc = (if s.keypad.getLsbD ((s.reg x).toNat % 16) = false then s.pc + 4 else s.pc + 2) ∧
      KeepsAllBut [.pc] s t)

/-- `LD Vx, K`, first cycle (R105): it suspends with `x` and the keypad as it stands, and changes neither `PC` nor a
register (D28 of the spec). -/
def Obligations.KeyWaitBegins : Prop :=
  ∀ (x : Reg) (s : State), ∃ t, exec (.ldVxK x) s = .next t ∧ t.awaiting = true ∧ t.waitReg = x ∧
    t.keyPrev = s.keypad ∧ KeepsAllBut [.keyWait] s t

/-- The poll step (R106): when a key is pressed now and was not at the previous poll, the least such key goes to
`V[wait_reg]`, the wait ends and `PC` advances by 2; otherwise the keypad is recorded and nothing else changes (D28 of
the spec). No fetch is made: it happens at every `PC`. -/
def Obligations.KeyWaitPollCompletesOnAPress : Prop :=
  ∀ s : State, s.loaded = true → s.awaiting = true →
    (∀ k : Reg, s.keypad.getLsbD k.val = true → s.keyPrev.getLsbD k.val = false →
      (∀ j < k, s.keypad.getLsbD j.val = true → s.keyPrev.getLsbD j.val = true) →
      ∃ t, runCycle s = .next t ∧ (t.reg s.waitReg).toNat = k.val ∧ t.awaiting = false ∧
        t.waitReg = s.waitReg ∧ t.keyPrev = s.keyPrev ∧ t.pc = s.pc + 2 ∧ KeepsRegsBut [s.waitReg] s t ∧
        KeepsAllBut [.regs, .keyWait, .pc] s t) ∧
    ((∀ k : Reg, s.keypad.getLsbD k.val = true → s.keyPrev.getLsbD k.val = true) →
      ∃ t, runCycle s = .next t ∧ t.keyPrev = s.keypad ∧ t.awaiting = true ∧ t.waitReg = s.waitReg ∧
        KeepsAllBut [.keyWait] s t)

/-- The key-wait as a state machine (R107): from running, a cycle reaches awaiting exactly by fetching `LD Vx, K`; no
other command than RunCycle and SetDefaults changes the execution state, and SetDefaults reaches running (D28 of the
spec). -/
def Obligations.KeyWaitStateMachine : Prop :=
  (∀ s t : State, s.awaiting = false → runCycle s = .next t →
    (t.awaiting = true ↔ ∃ x, decodeWord (wordAtPc s) = some (.ldVxK x))) ∧
  (∀ (c : Command) (s t : State), perform c s = .next t → c ≠ .runCycle → c ≠ .setDefaults →
    t.awaiting = s.awaiting) ∧
  (∀ s : State, ∃ t, perform .setDefaults s = .next t ∧ t.awaiting = false)

/-! ## Timers -/

/-- The three timer instructions (R108 to R110): `V[x]` from DT, DT from `V[x]`, ST from `V[x]`. -/
def Obligations.TimerInstructions : Prop :=
  ∀ (x : Reg) (s : State),
    (∃ t, exec (.ldVxDt x) s = .next t ∧ t.reg x = s.dt ∧ KeepsRegsBut [x] s t ∧ t.pc = s.pc + 2 ∧
      KeepsAllBut [.regs, .pc] s t) ∧
    (∃ t, exec (.ldDtVx x) s = .next t ∧ t.dt = s.reg x ∧ t.pc = s.pc + 2 ∧ KeepsAllBut [.dt, .pc] s t) ∧
    (∃ t, exec (.ldStVx x) s = .next t ∧ t.st = s.reg x ∧ t.pc = s.pc + 2 ∧ KeepsAllBut [.st, .pc] s t)

/-- `Tick` (R127): each timer goes down by one and never below 0, each on its own, with no guard (D35 of the spec). -/
def Obligations.TickCountsBothTimersDown : Prop :=
  ∀ s : State, ∃ t, perform .tick s = .next t ∧ t.dt.toNat = s.dt.toNat - 1 ∧ t.st.toNat = s.st.toNat - 1 ∧
    KeepsAllBut [.dt, .st] s t

/-- A timer rises only by an explicit timer write (conflict C8 of the spec's 90_conflicts.md): every other command
leaves each timer at or below what it was, and a command that is neither Tick nor SetDefaults leaves it equal. -/
def Obligations.TimersRiseOnlyByTimerWrites : Prop :=
  ∀ (c : Command) (s t : State), perform c s = .next t →
    (∀ b, c ≠ .writeDT b) → (∀ b, c ≠ .writeST b) →
    (∀ x, c = .runCycle → decodeWord (wordAtPc s) ≠ some (.ldDtVx x) ∧ decodeWord (wordAtPc s) ≠ some (.ldStVx x)) →
    t.dt.toNat ≤ s.dt.toNat ∧ t.st.toNat ≤ s.st.toNat ∧
    (c ≠ .tick → c ≠ .setDefaults → t.dt = s.dt ∧ t.st = s.st)

/-! ## The host's other commands -/

/-- `SetDefaults` (R140): accepted in every state, every field of the core at its reset value, and twice is once. The
commands that still wait and the count of free bytes drawn are the model's own and stay (logs 1 and 2). -/
def Obligations.SetDefaultsResetsTheCore : Prop :=
  ∀ s : State, ∃ t, perform .setDefaults s = .next t ∧ KeepsAllBut [.draws, .inbox] State.reset t ∧
    t.mem = State.reset.mem ∧ t.inbox = s.inbox ∧ t.rndIndex = s.rndIndex ∧ perform .setDefaults t = .next t

/-- `Load` (R142): an absent buffer is InvalidArgument, more than 3584 bytes ProgramTooLarge; otherwise the bytes stand
from 0x200 on, `loaded` is set and `prog_len` is the length, and nothing else changes, memory outside the window
included (D39 of the spec). -/
def Obligations.LoadCopiesTheProgram : Prop :=
  ∀ s : State, perform (.load none) s = .fault .invalidArgument ∧
    ∀ buf : List Byte,
      (buf.length > 3584 → perform (.load (some buf)) s = .fault (.programTooLarge buf.length)) ∧
      (buf.length ≤ 3584 → ∃ t, perform (.load (some buf)) s = .next t ∧ t.loaded = true ∧
        t.progLen = buf.length ∧ (∀ j < buf.length, t.mem.read (0x200 + j) = buf.getD j 0) ∧
        KeepsMemoryOutside 0x200 buf.length s t ∧ KeepsAllBut [.memory, .loaded, .progLen] s t)

/-- `Start` (R143): ProgramNotLoaded while nothing is loaded, else no change at all (D36 of the spec). -/
def Obligations.StartIsOnlyAGuard : Prop :=
  ∀ s : State, (s.loaded = false → perform .start s = .fault .programNotLoaded) ∧
    (s.loaded = true → perform .start s = .next s)

/-- `SetKeys`, `WriteDT`, `WriteST` (R128, R130): the one thing named is replaced whole and nothing else changes; in
particular a waiting `LD Vx, K` goes on waiting (D42 and D43 of the spec). -/
def Obligations.HostWritesChangeOneThing : Prop :=
  ∀ (k : Keys) (b : Byte) (s : State),
    (∃ t, serve (.setKeys k) s = (.ok, t) ∧ t.keypad = k ∧ KeepsAllBut [.keypad] s t) ∧
    (∃ t, serve (.writeDT b) s = (.ok, t) ∧ t.dt = b ∧ KeepsAllBut [.dt] s t) ∧
    (∃ t, serve (.writeST b) s = (.ok, t) ∧ t.st = b ∧ KeepsAllBut [.st] s t)

/-- `ClearDirty` (R132) clears the dirty flag and changes nothing else; it cannot fail. -/
def Obligations.ClearDirtyClearsTheFlag : Prop :=
  ∀ s : State, ∃ t, serve .clearDirty s = (.ok, t) ∧ t.dirty = false ∧ KeepsAllBut [.dirty] s t

/-- `ReadTimers`, `QueryPC` and `QueryLoaded` (R129, R133) return what they name and change nothing. -/
def Obligations.HostReadsChangeNothing : Prop :=
  ∀ s : State, serve .readTimers s = (.timers s.dt s.st, s) ∧ serve .queryPC s = (.pc s.pc, s) ∧
    serve .queryLoaded s = (.loaded s.loaded, s)

/-- `ReadFramebuffer` (R131): the cell of column `x` and row `y` stands at `y * 64 + x` (D33 of the spec), with the
dirty flag; it changes nothing. -/
def Obligations.ReadFramebufferInRowOrder : Prop :=
  ∀ s : State, ∃ cells, serve .readFramebuffer s = (.framebuffer cells s.dirty, s) ∧
    ∀ (x : Fin 64) (y : Fin 32), cells.toList.getD (y.val * 64 + x.val) false = s.fb.cell x y

/-! ## Rules over all instructions -/

/-- The program counter after every instruction that completes (R63). -/
def Obligations.ProgramCounterAfterEveryInstruction : Prop :=
  ∀ (i : Instr) (s t : State), exec i s = .next t → t.pc.toNat = pcAfter i s

/-- An instruction writes no register but its destination and, where it sets a flag, VF (R11, R27; D17, D20 and D22 of
the spec for the instructions that leave VF alone). -/
def Obligations.RegistersWrittenByEachInstruction : Prop :=
  ∀ (i : Instr) (s t : State) (r : Reg), exec i s = .next t → ¬mayWriteReg i r → t.reg r = s.reg r

/-- Memory is written only by `LD [I], Vx` and `LD B, Vx`, and only in the range R37 gives them. -/
def Obligations.MemoryWrittenOnlyByTheStores : Prop :=
  ∀ (i : Instr) (s t : State) (a : Nat), exec i s = .next t → t.mem.read a ≠ s.mem.read a →
    a ≤ 0xFFF ∧ s.i.toNat ≤ a ∧
    ((∃ x, i = .storeRegs x ∧ a ≤ s.i.toNat + x.val) ∨ (∃ x, i = .ldB x ∧ a ≤ s.i.toNat + 2))

/-- A cycle never changes the keypad, `loaded` or `prog_len`, and it never counts a timer down: a timer that differs
after it holds a register's value, put there by a timer instruction (R65). -/
def Obligations.CycleLeavesHostStateAlone : Prop :=
  ∀ s t : State, runCycle s = .next t →
    t.keypad = s.keypad ∧ t.loaded = s.loaded ∧ t.progLen = s.progLen ∧
    (t.dt = s.dt ∨ ∃ x, decodeWord (wordAtPc s) = some (.ldDtVx x) ∧ t.dt = s.reg x) ∧
    (t.st = s.st ∨ ∃ x, decodeWord (wordAtPc s) = some (.ldStVx x) ∧ t.st = s.reg x)

/-- The end of a run (R66): where the word at `PC` is a jump to `PC` itself and no key is awaited, any number of steps
with no command waiting (log 2) changes nothing at all. -/
def Obligations.SelfJumpIsTheEndOfARun : Prop :=
  ∀ (s : State) (k : Nat), CanFetch s → s.inbox = [] → (wordAtPc s).toNat = 0x1000 + s.pc.toNat →
    core.run k s = .next s

/-- The commands that wait are invisible to an instruction: with another queue it does the same and leaves that queue as
it is (R5, R65; the queue is the model's own, log 2). -/
def Obligations.InstructionsIgnoreWaitingCommands : Prop :=
  ∀ (i : Instr) (s : State) (q : List Command),
    (∀ t, exec i s = .next t → exec i (s.setInbox q) = .next (t.setInbox q)) ∧
    (∀ f, exec i s = .fault f → exec i (s.setInbox q) = .fault f)

/-- Commands are processed one at a time in the order of their arrival (R5): as many steps as commands wait give the
state that serving them in that order gives, and the run is safe exactly when none of them responds with a fault (R121;
the queue is the model's own, log 2; a run ends at a fault, log 3). -/
def Obligations.CommandsRunInArrivalOrder : Prop :=
  ∀ (cs : List Command) (s : State),
    (∀ t, core.run cs.length (s.setInbox cs) = .next t → t = (serveAll cs (s.setInbox [])).2) ∧
    (SafeFor cs.length (s.setInbox cs) ↔ ∀ f, Response.fault f ∉ (serveAll cs (s.setInbox [])).1)
end

