-- ==== Sys2Proof/Laws/Encoding.lean ====
section
/-! SUPPORT. The fields of a word and the words of a format as numbers, and from them the fields of an encoded word. -/

namespace Sys2Proof

/-! ## As numbers -/

theorem toNat_append_eq {m n : Nat} (x : BitVec m) (y : BitVec n) :
    (x ++ y).toNat = x.toNat * 2 ^ n + y.toNat := by
  rw [BitVec.toNat_append, ← Nat.shiftLeft_add_eq_or_of_lt y.isLt, Nat.shiftLeft_eq]

theorem toNat_opField (w : Word) : (opField w).toNat = w.toNat / 4096 := by
  have := w.isLt
  simp only [opField, BitVec.extractLsb'_toNat, Nat.shiftRight_eq_div_pow]
  omega

theorem val_xField (w : Word) : (xField w).val = w.toNat / 256 % 16 := by
  change (w.extractLsb' 8 4).toNat = _
  simp only [BitVec.extractLsb'_toNat, Nat.shiftRight_eq_div_pow]

theorem val_yField (w : Word) : (yField w).val = w.toNat / 16 % 16 := by
  change (w.extractLsb' 4 4).toNat = _
  simp only [BitVec.extractLsb'_toNat, Nat.shiftRight_eq_div_pow]

theorem toNat_nField (w : Word) : (nField w).toNat = w.toNat % 16 := by
  simp [nField, BitVec.extractLsb'_toNat]

theorem toNat_nnField (w : Word) : (nnField w).toNat = w.toNat % 256 := by
  simp [nnField, BitVec.extractLsb'_toNat]

theorem toNat_nnnField (w : Word) : (nnnField w).toNat = w.toNat % 4096 := by
  simp [nnnField, BitVec.extractLsb'_toNat]

theorem toNat_nibbleOfReg (x : Reg) : (nibbleOfReg x).toNat = x.val := rfl

theorem toNat_formatNNN (op : Nibble) (nnn : Addr) :
    (formatNNN op nnn).toNat = op.toNat * 4096 + nnn.toNat :=
  toNat_append_eq op nnn

theorem toNat_formatXNN (op : Nibble) (x : Reg) (nn : Byte) :
    (formatXNN op x nn).toNat = op.toNat * 4096 + x.val * 256 + nn.toNat := by
  have h1 := toNat_append_eq op (nibbleOfReg x ++ nn)
  have h2 := toNat_append_eq (nibbleOfReg x) nn
  rw [toNat_nibbleOfReg] at h2
  rw [h2] at h1
  exact h1.trans (by omega)

theorem toNat_formatXYN (op : Nibble) (x y : Reg) (n : Nibble) :
    (formatXYN op x y n).toNat = op.toNat * 4096 + x.val * 256 + y.val * 16 + n.toNat := by
  have h1 := toNat_append_eq op (nibbleOfReg x ++ (nibbleOfReg y ++ n))
  have h2 := toNat_append_eq (nibbleOfReg x) (nibbleOfReg y ++ n)
  have h3 := toNat_append_eq (nibbleOfReg y) n
  rw [toNat_nibbleOfReg] at h2 h3
  rw [h2, h3] at h1
  exact h1.trans (by omega)

theorem toNat_wordOfBytes (hi lo : Byte) : (wordOfBytes hi lo).toNat = hi.toNat * 256 + lo.toNat :=
  toNat_append_eq hi lo

/-! ## The fields of an encoded word -/

@[simp] theorem opField_formatNNN (op : Nibble) (nnn : Addr) : opField (formatNNN op nnn) = op := by
  apply BitVec.eq_of_toNat_eq; rw [toNat_opField, toNat_formatNNN]; omega

@[simp] theorem nnnField_formatNNN (op : Nibble) (nnn : Addr) : nnnField (formatNNN op nnn) = nnn := by
  apply BitVec.eq_of_toNat_eq; rw [toNat_nnnField, toNat_formatNNN]; omega

@[simp] theorem opField_formatXNN (op : Nibble) (x : Reg) (nn : Byte) : opField (formatXNN op x nn) = op := by
  apply BitVec.eq_of_toNat_eq; rw [toNat_opField, toNat_formatXNN]; omega

@[simp] theorem xField_formatXNN (op : Nibble) (x : Reg) (nn : Byte) : xField (formatXNN op x nn) = x := by
  apply Fin.ext; rw [val_xField, toNat_formatXNN]; omega

@[simp] theorem nnField_formatXNN (op : Nibble) (x : Reg) (nn : Byte) : nnField (formatXNN op x nn) = nn := by
  apply BitVec.eq_of_toNat_eq; rw [toNat_nnField, toNat_formatXNN]; omega

@[simp] theorem opField_formatXYN (op : Nibble) (x y : Reg) (n : Nibble) : opField (formatXYN op x y n) = op := by
  apply BitVec.eq_of_toNat_eq; rw [toNat_opField, toNat_formatXYN]; omega

@[simp] theorem xField_formatXYN (op : Nibble) (x y : Reg) (n : Nibble) : xField (formatXYN op x y n) = x := by
  apply Fin.ext; rw [val_xField, toNat_formatXYN]; omega

@[simp] theorem yField_formatXYN (op : Nibble) (x y : Reg) (n : Nibble) : yField (formatXYN op x y n) = y := by
  apply Fin.ext; rw [val_yField, toNat_formatXYN]; omega

@[simp] theorem nField_formatXYN (op : Nibble) (x y : Reg) (n : Nibble) : nField (formatXYN op x y n) = n := by
  apply BitVec.eq_of_toNat_eq; rw [toNat_nField, toNat_formatXYN]; omega

/-! ## A word from its fields -/

theorem formatNNN_fields (w : Word) : formatNNN (opField w) (nnnField w) = w := by
  apply BitVec.eq_of_toNat_eq; rw [toNat_formatNNN, toNat_opField, toNat_nnnField]; omega

theorem formatXNN_fields (w : Word) : formatXNN (opField w) (xField w) (nnField w) = w := by
  apply BitVec.eq_of_toNat_eq; rw [toNat_formatXNN, toNat_opField, val_xField, toNat_nnField]; omega

theorem formatXYN_fields (w : Word) : formatXYN (opField w) (xField w) (yField w) (nField w) = w := by
  apply BitVec.eq_of_toNat_eq
  rw [toNat_formatXYN, toNat_opField, val_xField, val_yField, toNat_nField]; omega

/-- A family that is none of the first fifteen is the last. -/
theorem nibble_eq_fifteen {o : Nibble} (h : ∀ k : Fin 15, o ≠ BitVec.ofNat 4 k.val) : o = 0xF#4 := by
  revert h; revert o; decide

/-! ## Bytes -/

@[simp] theorem wordOfBytes_halves (w : Word) : wordOfBytes (w.extractLsb' 8 8) (w.extractLsb' 0 8) = w := by
  apply BitVec.eq_of_toNat_eq
  have := w.isLt
  rw [toNat_wordOfBytes]
  simp only [BitVec.extractLsb'_toNat, Nat.shiftRight_eq_div_pow]
  omega

/-- Decoding the bytes of a word is decoding the word. -/
theorem decode_bytesOfWord (w : Word) (rest : List Byte) :
    decode (bytesOfWord w ++ rest) =
      match decodeWord w with
      | some i => .ok (i, rest)
      | none => .error (.illegalWord w) := by
  cases h : decodeWord w <;> simp [bytesOfWord, decode, h]

end Sys2Proof
end

