-- ==== Sys2Proof/Laws/Memory.lean ====
section
/-! SUPPORT. The laws of memory: what a read gives after a write, and that every operation keeps the canonical form. -/

namespace Sys2Proof.Machine

@[simp] theorem Memory.read_nil (a : Nat) : Memory.read [] a = Memory.resetByte a := rfl

theorem Memory.read_cons (k : Nat) (b : Byte) (m : Memory) (a : Nat) :
    Memory.read ((k, b) :: m) a = if k = a then b else Memory.read m a := rfl

theorem Memory.read_filter_ne (m : Memory) (a c : Nat) :
    Memory.read (m.filter fun e => e.1 != a) c = if c = a then resetByte a else Memory.read m c := by
  induction m with
  | nil => by_cases h : c = a <;> simp [h]
  | cons e m ih =>
    obtain ⟨k, b⟩ := e
    by_cases hk : k = a
    · simp only [List.filter_cons, hk, bne_self_eq_false, Bool.false_eq_true, if_false, ih, read_cons]
      by_cases hc : c = a
      · simp [hc]
      · simp [hc, Ne.symm hc]
    · simp only [List.filter_cons, bne_iff_ne, ne_eq, hk, not_false_eq_true, if_true, read_cons, ih]
      by_cases hc : c = a
      · subst hc; simp [hk]
      · simp [hc]

theorem Memory.read_insertCell (m : Memory) (a c : Nat) (b : Byte) (h : ∀ e ∈ m, e.1 ≠ a) :
    Memory.read (insertCell a b m) c = if c = a then b else Memory.read m c := by
  induction m with
  | nil =>
    by_cases hc : c = a
    · simp [insertCell, read_cons, hc]
    · simp [insertCell, read_cons, hc, Ne.symm hc]
  | cons e m ih =>
    obtain ⟨k, d⟩ := e
    have hk : k ≠ a := h (k, d) (by simp)
    have ih := ih fun e he => h e (by simp [he])
    by_cases hlt : k < a
    · simp only [insertCell, hlt, if_true, read_cons, ih]
      by_cases hc : c = a
      · subst hc; simp [hk]
      · simp [hc]
    · simp only [insertCell, hlt, if_false, read_cons]
      by_cases hc : c = a
      · simp [hc]
      · simp [hc, Ne.symm hc]

/-- Read after write, for any memory: the byte written at its own address, the old byte at every other. -/
@[simp] theorem Memory.read_write (m : Memory) (a c : Nat) (b : Byte) :
    (m.write a b).read c = if c = a then b else m.read c := by
  unfold Memory.write
  by_cases hb : b = resetByte a
  · simp only [hb, if_true, read_filter_ne]
  · simp only [hb, if_false]
    rw [read_insertCell _ _ _ _ (by simp), read_filter_ne]
    by_cases hc : c = a <;> simp [hc]

theorem Memory.read_writeBytes (bs : List Byte) : ∀ (m : Memory) (a c : Nat),
    (m.writeBytes a bs).read c = if a ≤ c ∧ c < a + bs.length then bs.getD (c - a) 0 else m.read c := by
  induction bs with
  | nil => intro m a c; simp [writeBytes]
  | cons b bs ih =>
    intro m a c
    simp only [writeBytes, ih, read_write, List.length_cons]
    rcases Nat.lt_trichotomy c a with h | h | h
    · simp [show ¬ a + 1 ≤ c by omega, show ¬ a ≤ c by omega, show c ≠ a by omega]
    · subst h; simp
    · obtain ⟨d, rfl⟩ : ∃ d, c = a + 1 + d := ⟨c - (a + 1), by omega⟩
      by_cases hd : d < bs.length
      · simp [show a + 1 + d < a + 1 + bs.length by omega, show a ≤ a + 1 + d by omega,
          show a + 1 + d < a + (bs.length + 1) by omega, show a + 1 + d - a = d + 1 by omega]
      · simp [show ¬ a + 1 + d < a + 1 + bs.length by omega, show ¬ a + 1 + d < a + (bs.length + 1) by omega,
          show a + 1 + d ≠ a by omega]

@[simp] theorem Memory.length_readBytes (m : Memory) (a n : Nat) : (m.readBytes a n).length = n := by
  simp [readBytes]

theorem Memory.getD_readBytes (m : Memory) (a n k : Nat) (d : Byte) :
    (m.readBytes a n).getD k d = if k < n then m.read (a + k) else d := by
  by_cases h : k < n <;> simp [readBytes, List.getD, h]

/-! ## The canonical form -/

theorem Memory.wfFrom_cons (lo k : Nat) (b : Byte) (m : Memory) :
    wfFrom lo ((k, b) :: m) = true ↔
      lo ≤ k ∧ k ≤ Config.topAddress ∧ b ≠ resetByte k ∧ wfFrom (k + 1) m = true := by
  simp [wfFrom, and_assoc]

theorem Memory.wfFrom_mono {m : Memory} {lo hi : Nat} (h : wfFrom hi m = true) (hle : lo ≤ hi) :
    wfFrom lo m = true := by
  cases m with
  | nil => rfl
  | cons e m =>
    obtain ⟨k, b⟩ := e
    rw [wfFrom_cons] at h ⊢
    exact ⟨by omega, h.2⟩

theorem Memory.wfFrom_filter {m : Memory} (p : Host.Cell → Bool) : ∀ {lo : Nat}, wfFrom lo m = true →
    wfFrom lo (m.filter p) = true := by
  induction m with
  | nil => intro lo _; rfl
  | cons e m ih =>
    intro lo h
    obtain ⟨k, b⟩ := e
    rw [wfFrom_cons] at h
    by_cases hp : p (k, b)
    · rw [List.filter_cons_of_pos hp, wfFrom_cons]
      exact ⟨h.1, h.2.1, h.2.2.1, ih h.2.2.2⟩
    · rw [List.filter_cons_of_neg hp]
      exact ih (wfFrom_mono h.2.2.2 (by omega))

theorem Memory.wfFrom_insertCell {m : Memory} {a : Nat} {b : Byte} (hb : b ≠ resetByte a)
    (ha : a ≤ Config.topAddress) : ∀ {lo : Nat}, lo ≤ a → wfFrom lo m = true → (∀ e ∈ m, e.1 ≠ a) →
    wfFrom lo (insertCell a b m) = true := by
  induction m with
  | nil => intro lo hlo _ _; rw [insertCell, wfFrom_cons]; exact ⟨hlo, ha, hb, rfl⟩
  | cons e m ih =>
    intro lo hlo h hne
    obtain ⟨k, c⟩ := e
    have hk : k ≠ a := hne (k, c) (by simp)
    rw [wfFrom_cons] at h
    by_cases hlt : k < a
    · simp only [insertCell, hlt, if_true]
      rw [wfFrom_cons]
      exact ⟨h.1, h.2.1, h.2.2.1, ih (by omega) h.2.2.2 fun e he => hne e (by simp [he])⟩
    · simp only [insertCell, hlt, if_false]
      rw [wfFrom_cons, wfFrom_cons]
      exact ⟨hlo, ha, hb, by omega, h.2⟩

/-- A write inside the Memory Image keeps the canonical form. -/
theorem Memory.wf_write {m : Memory} {a : Nat} (b : Byte) (h : m.wf = true) (ha : a ≤ Config.topAddress) :
    (m.write a b).wf = true := by
  unfold Memory.write
  by_cases hb : b = resetByte a
  · simp only [hb, if_true]; exact wfFrom_filter _ h
  · simp only [hb, if_false]
    exact wfFrom_insertCell hb ha (Nat.zero_le _) (wfFrom_filter _ h) (by simp)

/-- Writing bytes inside the Memory Image keeps the canonical form. -/
theorem Memory.wf_writeBytes (bs : List Byte) : ∀ {m : Memory} {a : Nat}, m.wf = true →
    a + bs.length ≤ Config.topAddress + 1 → (m.writeBytes a bs).wf = true := by
  induction bs with
  | nil => intro m a h _; exact h
  | cons b bs ih =>
    intro m a h hb
    simp only [List.length_cons] at hb
    exact ih (wf_write b h (by omega)) (by omega)

theorem Memory.wf_nil : Memory.wf [] = true := rfl

theorem Memory.read_of_wfFrom {m : Memory} : ∀ {lo : Nat}, wfFrom lo m = true → ∀ a, a < lo →
    m.read a = resetByte a := by
  induction m with
  | nil => intro lo _ a _; rfl
  | cons e m ih =>
    intro lo h a ha
    obtain ⟨k, b⟩ := e
    rw [wfFrom_cons] at h
    rw [read_cons, if_neg (by omega)]
    exact ih h.2.2.2 a (by omega)

end Sys2Proof.Machine
end

