-- ==== Sys2Proof/Laws/State.lean ====
section
/-! SUPPORT. One lemma a field and update of State, true by rfl, so that no later proof unfolds a record update. -/

namespace Sys2Proof.Machine

variable (s : State)

@[simp] theorem State.setReg_v (x : Reg) (b : Byte) : (s.setReg x b).v = s.v.set x b := rfl
@[simp] theorem State.setReg_i (x : Reg) (b : Byte) : (s.setReg x b).i = s.i := rfl
@[simp] theorem State.setReg_pc (x : Reg) (b : Byte) : (s.setReg x b).pc = s.pc := rfl
@[simp] theorem State.setReg_stack (x : Reg) (b : Byte) : (s.setReg x b).stack = s.stack := rfl
@[simp] theorem State.setReg_sp (x : Reg) (b : Byte) : (s.setReg x b).sp = s.sp := rfl
@[simp] theorem State.setReg_keypad (x : Reg) (b : Byte) : (s.setReg x b).keypad = s.keypad := rfl
@[simp] theorem State.setReg_dt (x : Reg) (b : Byte) : (s.setReg x b).dt = s.dt := rfl
@[simp] theorem State.setReg_st (x : Reg) (b : Byte) : (s.setReg x b).st = s.st := rfl
@[simp] theorem State.setReg_fb (x : Reg) (b : Byte) : (s.setReg x b).fb = s.fb := rfl
@[simp] theorem State.setReg_dirty (x : Reg) (b : Byte) : (s.setReg x b).dirty = s.dirty := rfl
@[simp] theorem State.setReg_loaded (x : Reg) (b : Byte) : (s.setReg x b).loaded = s.loaded := rfl
@[simp] theorem State.setReg_progLen (x : Reg) (b : Byte) : (s.setReg x b).progLen = s.progLen := rfl
@[simp] theorem State.setReg_awaiting (x : Reg) (b : Byte) : (s.setReg x b).awaiting = s.awaiting := rfl
@[simp] theorem State.setReg_waitReg (x : Reg) (b : Byte) : (s.setReg x b).waitReg = s.waitReg := rfl
@[simp] theorem State.setReg_keyPrev (x : Reg) (b : Byte) : (s.setReg x b).keyPrev = s.keyPrev := rfl
@[simp] theorem State.setReg_mem (x : Reg) (b : Byte) : (s.setReg x b).mem = s.mem := rfl
@[simp] theorem State.setReg_rndIndex (x : Reg) (b : Byte) : (s.setReg x b).rndIndex = s.rndIndex := rfl
@[simp] theorem State.setReg_inbox (x : Reg) (b : Byte) : (s.setReg x b).inbox = s.inbox := rfl

@[simp] theorem State.setFirstRegs_v (bs : List Byte) : (s.setFirstRegs bs).v = Vector.ofFn fun r : Reg => bs.getD r.val s.v[r] := rfl
@[simp] theorem State.setFirstRegs_i (bs : List Byte) : (s.setFirstRegs bs).i = s.i := rfl
@[simp] theorem State.setFirstRegs_pc (bs : List Byte) : (s.setFirstRegs bs).pc = s.pc := rfl
@[simp] theorem State.setFirstRegs_stack (bs : List Byte) : (s.setFirstRegs bs).stack = s.stack := rfl
@[simp] theorem State.setFirstRegs_sp (bs : List Byte) : (s.setFirstRegs bs).sp = s.sp := rfl
@[simp] theorem State.setFirstRegs_keypad (bs : List Byte) : (s.setFirstRegs bs).keypad = s.keypad := rfl
@[simp] theorem State.setFirstRegs_dt (bs : List Byte) : (s.setFirstRegs bs).dt = s.dt := rfl
@[simp] theorem State.setFirstRegs_st (bs : List Byte) : (s.setFirstRegs bs).st = s.st := rfl
@[simp] theorem State.setFirstRegs_fb (bs : List Byte) : (s.setFirstRegs bs).fb = s.fb := rfl
@[simp] theorem State.setFirstRegs_dirty (bs : List Byte) : (s.setFirstRegs bs).dirty = s.dirty := rfl
@[simp] theorem State.setFirstRegs_loaded (bs : List Byte) : (s.setFirstRegs bs).loaded = s.loaded := rfl
@[simp] theorem State.setFirstRegs_progLen (bs : List Byte) : (s.setFirstRegs bs).progLen = s.progLen := rfl
@[simp] theorem State.setFirstRegs_awaiting (bs : List Byte) : (s.setFirstRegs bs).awaiting = s.awaiting := rfl
@[simp] theorem State.setFirstRegs_waitReg (bs : List Byte) : (s.setFirstRegs bs).waitReg = s.waitReg := rfl
@[simp] theorem State.setFirstRegs_keyPrev (bs : List Byte) : (s.setFirstRegs bs).keyPrev = s.keyPrev := rfl
@[simp] theorem State.setFirstRegs_mem (bs : List Byte) : (s.setFirstRegs bs).mem = s.mem := rfl
@[simp] theorem State.setFirstRegs_rndIndex (bs : List Byte) : (s.setFirstRegs bs).rndIndex = s.rndIndex := rfl
@[simp] theorem State.setFirstRegs_inbox (bs : List Byte) : (s.setFirstRegs bs).inbox = s.inbox := rfl

@[simp] theorem State.setIndex_v (a : Word) : (s.setIndex a).v = s.v := rfl
@[simp] theorem State.setIndex_i (a : Word) : (s.setIndex a).i = a := rfl
@[simp] theorem State.setIndex_pc (a : Word) : (s.setIndex a).pc = s.pc := rfl
@[simp] theorem State.setIndex_stack (a : Word) : (s.setIndex a).stack = s.stack := rfl
@[simp] theorem State.setIndex_sp (a : Word) : (s.setIndex a).sp = s.sp := rfl
@[simp] theorem State.setIndex_keypad (a : Word) : (s.setIndex a).keypad = s.keypad := rfl
@[simp] theorem State.setIndex_dt (a : Word) : (s.setIndex a).dt = s.dt := rfl
@[simp] theorem State.setIndex_st (a : Word) : (s.setIndex a).st = s.st := rfl
@[simp] theorem State.setIndex_fb (a : Word) : (s.setIndex a).fb = s.fb := rfl
@[simp] theorem State.setIndex_dirty (a : Word) : (s.setIndex a).dirty = s.dirty := rfl
@[simp] theorem State.setIndex_loaded (a : Word) : (s.setIndex a).loaded = s.loaded := rfl
@[simp] theorem State.setIndex_progLen (a : Word) : (s.setIndex a).progLen = s.progLen := rfl
@[simp] theorem State.setIndex_awaiting (a : Word) : (s.setIndex a).awaiting = s.awaiting := rfl
@[simp] theorem State.setIndex_waitReg (a : Word) : (s.setIndex a).waitReg = s.waitReg := rfl
@[simp] theorem State.setIndex_keyPrev (a : Word) : (s.setIndex a).keyPrev = s.keyPrev := rfl
@[simp] theorem State.setIndex_mem (a : Word) : (s.setIndex a).mem = s.mem := rfl
@[simp] theorem State.setIndex_rndIndex (a : Word) : (s.setIndex a).rndIndex = s.rndIndex := rfl
@[simp] theorem State.setIndex_inbox (a : Word) : (s.setIndex a).inbox = s.inbox := rfl
@[simp] theorem State.setIndex_reg (a : Word) (r : Reg) : (s.setIndex a).reg r = s.reg r := rfl

@[simp] theorem State.goto_v (a : Word) : (s.goto a).v = s.v := rfl
@[simp] theorem State.goto_i (a : Word) : (s.goto a).i = s.i := rfl
@[simp] theorem State.goto_pc (a : Word) : (s.goto a).pc = a := rfl
@[simp] theorem State.goto_stack (a : Word) : (s.goto a).stack = s.stack := rfl
@[simp] theorem State.goto_sp (a : Word) : (s.goto a).sp = s.sp := rfl
@[simp] theorem State.goto_keypad (a : Word) : (s.goto a).keypad = s.keypad := rfl
@[simp] theorem State.goto_dt (a : Word) : (s.goto a).dt = s.dt := rfl
@[simp] theorem State.goto_st (a : Word) : (s.goto a).st = s.st := rfl
@[simp] theorem State.goto_fb (a : Word) : (s.goto a).fb = s.fb := rfl
@[simp] theorem State.goto_dirty (a : Word) : (s.goto a).dirty = s.dirty := rfl
@[simp] theorem State.goto_loaded (a : Word) : (s.goto a).loaded = s.loaded := rfl
@[simp] theorem State.goto_progLen (a : Word) : (s.goto a).progLen = s.progLen := rfl
@[simp] theorem State.goto_awaiting (a : Word) : (s.goto a).awaiting = s.awaiting := rfl
@[simp] theorem State.goto_waitReg (a : Word) : (s.goto a).waitReg = s.waitReg := rfl
@[simp] theorem State.goto_keyPrev (a : Word) : (s.goto a).keyPrev = s.keyPrev := rfl
@[simp] theorem State.goto_mem (a : Word) : (s.goto a).mem = s.mem := rfl
@[simp] theorem State.goto_rndIndex (a : Word) : (s.goto a).rndIndex = s.rndIndex := rfl
@[simp] theorem State.goto_inbox (a : Word) : (s.goto a).inbox = s.inbox := rfl
@[simp] theorem State.goto_reg (a : Word) (r : Reg) : (s.goto a).reg r = s.reg r := rfl

@[simp] theorem State.setStack_v (e : Vector Word 16) (n : Fin 17) : (s.setStack e n).v = s.v := rfl
@[simp] theorem State.setStack_i (e : Vector Word 16) (n : Fin 17) : (s.setStack e n).i = s.i := rfl
@[simp] theorem State.setStack_pc (e : Vector Word 16) (n : Fin 17) : (s.setStack e n).pc = s.pc := rfl
@[simp] theorem State.setStack_stack (e : Vector Word 16) (n : Fin 17) : (s.setStack e n).stack = e := rfl
@[simp] theorem State.setStack_sp (e : Vector Word 16) (n : Fin 17) : (s.setStack e n).sp = n := rfl
@[simp] theorem State.setStack_keypad (e : Vector Word 16) (n : Fin 17) : (s.setStack e n).keypad = s.keypad := rfl
@[simp] theorem State.setStack_dt (e : Vector Word 16) (n : Fin 17) : (s.setStack e n).dt = s.dt := rfl
@[simp] theorem State.setStack_st (e : Vector Word 16) (n : Fin 17) : (s.setStack e n).st = s.st := rfl
@[simp] theorem State.setStack_fb (e : Vector Word 16) (n : Fin 17) : (s.setStack e n).fb = s.fb := rfl
@[simp] theorem State.setStack_dirty (e : Vector Word 16) (n : Fin 17) : (s.setStack e n).dirty = s.dirty := rfl
@[simp] theorem State.setStack_loaded (e : Vector Word 16) (n : Fin 17) : (s.setStack e n).loaded = s.loaded := rfl
@[simp] theorem State.setStack_progLen (e : Vector Word 16) (n : Fin 17) : (s.setStack e n).progLen = s.progLen := rfl
@[simp] theorem State.setStack_awaiting (e : Vector Word 16) (n : Fin 17) : (s.setStack e n).awaiting = s.awaiting := rfl
@[simp] theorem State.setStack_waitReg (e : Vector Word 16) (n : Fin 17) : (s.setStack e n).waitReg = s.waitReg := rfl
@[simp] theorem State.setStack_keyPrev (e : Vector Word 16) (n : Fin 17) : (s.setStack e n).keyPrev = s.keyPrev := rfl
@[simp] theorem State.setStack_mem (e : Vector Word 16) (n : Fin 17) : (s.setStack e n).mem = s.mem := rfl
@[simp] theorem State.setStack_rndIndex (e : Vector Word 16) (n : Fin 17) : (s.setStack e n).rndIndex = s.rndIndex := rfl
@[simp] theorem State.setStack_inbox (e : Vector Word 16) (n : Fin 17) : (s.setStack e n).inbox = s.inbox := rfl
@[simp] theorem State.setStack_reg (e : Vector Word 16) (n : Fin 17) (r : Reg) : (s.setStack e n).reg r = s.reg r := rfl

@[simp] theorem State.storeBytes_v (a : Nat) (bs : List Byte) : (s.storeBytes a bs).v = s.v := rfl
@[simp] theorem State.storeBytes_i (a : Nat) (bs : List Byte) : (s.storeBytes a bs).i = s.i := rfl
@[simp] theorem State.storeBytes_pc (a : Nat) (bs : List Byte) : (s.storeBytes a bs).pc = s.pc := rfl
@[simp] theorem State.storeBytes_stack (a : Nat) (bs : List Byte) : (s.storeBytes a bs).stack = s.stack := rfl
@[simp] theorem State.storeBytes_sp (a : Nat) (bs : List Byte) : (s.storeBytes a bs).sp = s.sp := rfl
@[simp] theorem State.storeBytes_keypad (a : Nat) (bs : List Byte) : (s.storeBytes a bs).keypad = s.keypad := rfl
@[simp] theorem State.storeBytes_dt (a : Nat) (bs : List Byte) : (s.storeBytes a bs).dt = s.dt := rfl
@[simp] theorem State.storeBytes_st (a : Nat) (bs : List Byte) : (s.storeBytes a bs).st = s.st := rfl
@[simp] theorem State.storeBytes_fb (a : Nat) (bs : List Byte) : (s.storeBytes a bs).fb = s.fb := rfl
@[simp] theorem State.storeBytes_dirty (a : Nat) (bs : List Byte) : (s.storeBytes a bs).dirty = s.dirty := rfl
@[simp] theorem State.storeBytes_loaded (a : Nat) (bs : List Byte) : (s.storeBytes a bs).loaded = s.loaded := rfl
@[simp] theorem State.storeBytes_progLen (a : Nat) (bs : List Byte) : (s.storeBytes a bs).progLen = s.progLen := rfl
@[simp] theorem State.storeBytes_awaiting (a : Nat) (bs : List Byte) : (s.storeBytes a bs).awaiting = s.awaiting := rfl
@[simp] theorem State.storeBytes_waitReg (a : Nat) (bs : List Byte) : (s.storeBytes a bs).waitReg = s.waitReg := rfl
@[simp] theorem State.storeBytes_keyPrev (a : Nat) (bs : List Byte) : (s.storeBytes a bs).keyPrev = s.keyPrev := rfl
@[simp] theorem State.storeBytes_mem (a : Nat) (bs : List Byte) : (s.storeBytes a bs).mem = s.mem.writeBytes a bs := rfl
@[simp] theorem State.storeBytes_rndIndex (a : Nat) (bs : List Byte) : (s.storeBytes a bs).rndIndex = s.rndIndex := rfl
@[simp] theorem State.storeBytes_inbox (a : Nat) (bs : List Byte) : (s.storeBytes a bs).inbox = s.inbox := rfl
@[simp] theorem State.storeBytes_reg (a : Nat) (bs : List Byte) (r : Reg) : (s.storeBytes a bs).reg r = s.reg r := rfl

@[simp] theorem State.setDt_v (b : Byte) : (s.setDt b).v = s.v := rfl
@[simp] theorem State.setDt_i (b : Byte) : (s.setDt b).i = s.i := rfl
@[simp] theorem State.setDt_pc (b : Byte) : (s.setDt b).pc = s.pc := rfl
@[simp] theorem State.setDt_stack (b : Byte) : (s.setDt b).stack = s.stack := rfl
@[simp] theorem State.setDt_sp (b : Byte) : (s.setDt b).sp = s.sp := rfl
@[simp] theorem State.setDt_keypad (b : Byte) : (s.setDt b).keypad = s.keypad := rfl
@[simp] theorem State.setDt_dt (b : Byte) : (s.setDt b).dt = b := rfl
@[simp] theorem State.setDt_st (b : Byte) : (s.setDt b).st = s.st := rfl
@[simp] theorem State.setDt_fb (b : Byte) : (s.setDt b).fb = s.fb := rfl
@[simp] theorem State.setDt_dirty (b : Byte) : (s.setDt b).dirty = s.dirty := rfl
@[simp] theorem State.setDt_loaded (b : Byte) : (s.setDt b).loaded = s.loaded := rfl
@[simp] theorem State.setDt_progLen (b : Byte) : (s.setDt b).progLen = s.progLen := rfl
@[simp] theorem State.setDt_awaiting (b : Byte) : (s.setDt b).awaiting = s.awaiting := rfl
@[simp] theorem State.setDt_waitReg (b : Byte) : (s.setDt b).waitReg = s.waitReg := rfl
@[simp] theorem State.setDt_keyPrev (b : Byte) : (s.setDt b).keyPrev = s.keyPrev := rfl
@[simp] theorem State.setDt_mem (b : Byte) : (s.setDt b).mem = s.mem := rfl
@[simp] theorem State.setDt_rndIndex (b : Byte) : (s.setDt b).rndIndex = s.rndIndex := rfl
@[simp] theorem State.setDt_inbox (b : Byte) : (s.setDt b).inbox = s.inbox := rfl
@[simp] theorem State.setDt_reg (b : Byte) (r : Reg) : (s.setDt b).reg r = s.reg r := rfl

@[simp] theorem State.setSt_v (b : Byte) : (s.setSt b).v = s.v := rfl
@[simp] theorem State.setSt_i (b : Byte) : (s.setSt b).i = s.i := rfl
@[simp] theorem State.setSt_pc (b : Byte) : (s.setSt b).pc = s.pc := rfl
@[simp] theorem State.setSt_stack (b : Byte) : (s.setSt b).stack = s.stack := rfl
@[simp] theorem State.setSt_sp (b : Byte) : (s.setSt b).sp = s.sp := rfl
@[simp] theorem State.setSt_keypad (b : Byte) : (s.setSt b).keypad = s.keypad := rfl
@[simp] theorem State.setSt_dt (b : Byte) : (s.setSt b).dt = s.dt := rfl
@[simp] theorem State.setSt_st (b : Byte) : (s.setSt b).st = b := rfl
@[simp] theorem State.setSt_fb (b : Byte) : (s.setSt b).fb = s.fb := rfl
@[simp] theorem State.setSt_dirty (b : Byte) : (s.setSt b).dirty = s.dirty := rfl
@[simp] theorem State.setSt_loaded (b : Byte) : (s.setSt b).loaded = s.loaded := rfl
@[simp] theorem State.setSt_progLen (b : Byte) : (s.setSt b).progLen = s.progLen := rfl
@[simp] theorem State.setSt_awaiting (b : Byte) : (s.setSt b).awaiting = s.awaiting := rfl
@[simp] theorem State.setSt_waitReg (b : Byte) : (s.setSt b).waitReg = s.waitReg := rfl
@[simp] theorem State.setSt_keyPrev (b : Byte) : (s.setSt b).keyPrev = s.keyPrev := rfl
@[simp] theorem State.setSt_mem (b : Byte) : (s.setSt b).mem = s.mem := rfl
@[simp] theorem State.setSt_rndIndex (b : Byte) : (s.setSt b).rndIndex = s.rndIndex := rfl
@[simp] theorem State.setSt_inbox (b : Byte) : (s.setSt b).inbox = s.inbox := rfl
@[simp] theorem State.setSt_reg (b : Byte) (r : Reg) : (s.setSt b).reg r = s.reg r := rfl

@[simp] theorem State.setCells_v (f : Framebuffer) (c : Bool) : (s.setCells f c).v = s.v := rfl
@[simp] theorem State.setCells_i (f : Framebuffer) (c : Bool) : (s.setCells f c).i = s.i := rfl
@[simp] theorem State.setCells_pc (f : Framebuffer) (c : Bool) : (s.setCells f c).pc = s.pc := rfl
@[simp] theorem State.setCells_stack (f : Framebuffer) (c : Bool) : (s.setCells f c).stack = s.stack := rfl
@[simp] theorem State.setCells_sp (f : Framebuffer) (c : Bool) : (s.setCells f c).sp = s.sp := rfl
@[simp] theorem State.setCells_keypad (f : Framebuffer) (c : Bool) : (s.setCells f c).keypad = s.keypad := rfl
@[simp] theorem State.setCells_dt (f : Framebuffer) (c : Bool) : (s.setCells f c).dt = s.dt := rfl
@[simp] theorem State.setCells_st (f : Framebuffer) (c : Bool) : (s.setCells f c).st = s.st := rfl
@[simp] theorem State.setCells_fb (f : Framebuffer) (c : Bool) : (s.setCells f c).fb = f := rfl
@[simp] theorem State.setCells_dirty (f : Framebuffer) (c : Bool) : (s.setCells f c).dirty = (s.dirty || c) := rfl
@[simp] theorem State.setCells_loaded (f : Framebuffer) (c : Bool) : (s.setCells f c).loaded = s.loaded := rfl
@[simp] theorem State.setCells_progLen (f : Framebuffer) (c : Bool) : (s.setCells f c).progLen = s.progLen := rfl
@[simp] theorem State.setCells_awaiting (f : Framebuffer) (c : Bool) : (s.setCells f c).awaiting = s.awaiting := rfl
@[simp] theorem State.setCells_waitReg (f : Framebuffer) (c : Bool) : (s.setCells f c).waitReg = s.waitReg := rfl
@[simp] theorem State.setCells_keyPrev (f : Framebuffer) (c : Bool) : (s.setCells f c).keyPrev = s.keyPrev := rfl
@[simp] theorem State.setCells_mem (f : Framebuffer) (c : Bool) : (s.setCells f c).mem = s.mem := rfl
@[simp] theorem State.setCells_rndIndex (f : Framebuffer) (c : Bool) : (s.setCells f c).rndIndex = s.rndIndex := rfl
@[simp] theorem State.setCells_inbox (f : Framebuffer) (c : Bool) : (s.setCells f c).inbox = s.inbox := rfl
@[simp] theorem State.setCells_reg (f : Framebuffer) (c : Bool) (r : Reg) : (s.setCells f c).reg r = s.reg r := rfl

@[simp] theorem State.suspend_v (x : Reg) : (s.suspend x).v = s.v := rfl
@[simp] theorem State.suspend_i (x : Reg) : (s.suspend x).i = s.i := rfl
@[simp] theorem State.suspend_pc (x : Reg) : (s.suspend x).pc = s.pc := rfl
@[simp] theorem State.suspend_stack (x : Reg) : (s.suspend x).stack = s.stack := rfl
@[simp] theorem State.suspend_sp (x : Reg) : (s.suspend x).sp = s.sp := rfl
@[simp] theorem State.suspend_keypad (x : Reg) : (s.suspend x).keypad = s.keypad := rfl
@[simp] theorem State.suspend_dt (x : Reg) : (s.suspend x).dt = s.dt := rfl
@[simp] theorem State.suspend_st (x : Reg) : (s.suspend x).st = s.st := rfl
@[simp] theorem State.suspend_fb (x : Reg) : (s.suspend x).fb = s.fb := rfl
@[simp] theorem State.suspend_dirty (x : Reg) : (s.suspend x).dirty = s.dirty := rfl
@[simp] theorem State.suspend_loaded (x : Reg) : (s.suspend x).loaded = s.loaded := rfl
@[simp] theorem State.suspend_progLen (x : Reg) : (s.suspend x).progLen = s.progLen := rfl
@[simp] theorem State.suspend_awaiting (x : Reg) : (s.suspend x).awaiting = true := rfl
@[simp] theorem State.suspend_waitReg (x : Reg) : (s.suspend x).waitReg = x := rfl
@[simp] theorem State.suspend_keyPrev (x : Reg) : (s.suspend x).keyPrev = s.keypad := rfl
@[simp] theorem State.suspend_mem (x : Reg) : (s.suspend x).mem = s.mem := rfl
@[simp] theorem State.suspend_rndIndex (x : Reg) : (s.suspend x).rndIndex = s.rndIndex := rfl
@[simp] theorem State.suspend_inbox (x : Reg) : (s.suspend x).inbox = s.inbox := rfl
@[simp] theorem State.suspend_reg (x : Reg) (r : Reg) : (s.suspend x).reg r = s.reg r := rfl

@[simp] theorem State.resume_v : (s.resume).v = s.v := rfl
@[simp] theorem State.resume_i : (s.resume).i = s.i := rfl
@[simp] theorem State.resume_pc : (s.resume).pc = s.pc := rfl
@[simp] theorem State.resume_stack : (s.resume).stack = s.stack := rfl
@[simp] theorem State.resume_sp : (s.resume).sp = s.sp := rfl
@[simp] theorem State.resume_keypad : (s.resume).keypad = s.keypad := rfl
@[simp] theorem State.resume_dt : (s.resume).dt = s.dt := rfl
@[simp] theorem State.resume_st : (s.resume).st = s.st := rfl
@[simp] theorem State.resume_fb : (s.resume).fb = s.fb := rfl
@[simp] theorem State.resume_dirty : (s.resume).dirty = s.dirty := rfl
@[simp] theorem State.resume_loaded : (s.resume).loaded = s.loaded := rfl
@[simp] theorem State.resume_progLen : (s.resume).progLen = s.progLen := rfl
@[simp] theorem State.resume_awaiting : (s.resume).awaiting = false := rfl
@[simp] theorem State.resume_waitReg : (s.resume).waitReg = s.waitReg := rfl
@[simp] theorem State.resume_keyPrev : (s.resume).keyPrev = s.keyPrev := rfl
@[simp] theorem State.resume_mem : (s.resume).mem = s.mem := rfl
@[simp] theorem State.resume_rndIndex : (s.resume).rndIndex = s.rndIndex := rfl
@[simp] theorem State.resume_inbox : (s.resume).inbox = s.inbox := rfl
@[simp] theorem State.resume_reg (r : Reg) : (s.resume).reg r = s.reg r := rfl

@[simp] theorem State.recordKeys_v : (s.recordKeys).v = s.v := rfl
@[simp] theorem State.recordKeys_i : (s.recordKeys).i = s.i := rfl
@[simp] theorem State.recordKeys_pc : (s.recordKeys).pc = s.pc := rfl
@[simp] theorem State.recordKeys_stack : (s.recordKeys).stack = s.stack := rfl
@[simp] theorem State.recordKeys_sp : (s.recordKeys).sp = s.sp := rfl
@[simp] theorem State.recordKeys_keypad : (s.recordKeys).keypad = s.keypad := rfl
@[simp] theorem State.recordKeys_dt : (s.recordKeys).dt = s.dt := rfl
@[simp] theorem State.recordKeys_st : (s.recordKeys).st = s.st := rfl
@[simp] theorem State.recordKeys_fb : (s.recordKeys).fb = s.fb := rfl
@[simp] theorem State.recordKeys_dirty : (s.recordKeys).dirty = s.dirty := rfl
@[simp] theorem State.recordKeys_loaded : (s.recordKeys).loaded = s.loaded := rfl
@[simp] theorem State.recordKeys_progLen : (s.recordKeys).progLen = s.progLen := rfl
@[simp] theorem State.recordKeys_awaiting : (s.recordKeys).awaiting = s.awaiting := rfl
@[simp] theorem State.recordKeys_waitReg : (s.recordKeys).waitReg = s.waitReg := rfl
@[simp] theorem State.recordKeys_keyPrev : (s.recordKeys).keyPrev = s.keypad := rfl
@[simp] theorem State.recordKeys_mem : (s.recordKeys).mem = s.mem := rfl
@[simp] theorem State.recordKeys_rndIndex : (s.recordKeys).rndIndex = s.rndIndex := rfl
@[simp] theorem State.recordKeys_inbox : (s.recordKeys).inbox = s.inbox := rfl
@[simp] theorem State.recordKeys_reg (r : Reg) : (s.recordKeys).reg r = s.reg r := rfl

@[simp] theorem State.nextRnd_v : (s.nextRnd).v = s.v := rfl
@[simp] theorem State.nextRnd_i : (s.nextRnd).i = s.i := rfl
@[simp] theorem State.nextRnd_pc : (s.nextRnd).pc = s.pc := rfl
@[simp] theorem State.nextRnd_stack : (s.nextRnd).stack = s.stack := rfl
@[simp] theorem State.nextRnd_sp : (s.nextRnd).sp = s.sp := rfl
@[simp] theorem State.nextRnd_keypad : (s.nextRnd).keypad = s.keypad := rfl
@[simp] theorem State.nextRnd_dt : (s.nextRnd).dt = s.dt := rfl
@[simp] theorem State.nextRnd_st : (s.nextRnd).st = s.st := rfl
@[simp] theorem State.nextRnd_fb : (s.nextRnd).fb = s.fb := rfl
@[simp] theorem State.nextRnd_dirty : (s.nextRnd).dirty = s.dirty := rfl
@[simp] theorem State.nextRnd_loaded : (s.nextRnd).loaded = s.loaded := rfl
@[simp] theorem State.nextRnd_progLen : (s.nextRnd).progLen = s.progLen := rfl
@[simp] theorem State.nextRnd_awaiting : (s.nextRnd).awaiting = s.awaiting := rfl
@[simp] theorem State.nextRnd_waitReg : (s.nextRnd).waitReg = s.waitReg := rfl
@[simp] theorem State.nextRnd_keyPrev : (s.nextRnd).keyPrev = s.keyPrev := rfl
@[simp] theorem State.nextRnd_mem : (s.nextRnd).mem = s.mem := rfl
@[simp] theorem State.nextRnd_rndIndex : (s.nextRnd).rndIndex = s.rndIndex + 1 := rfl
@[simp] theorem State.nextRnd_inbox : (s.nextRnd).inbox = s.inbox := rfl
@[simp] theorem State.nextRnd_reg (r : Reg) : (s.nextRnd).reg r = s.reg r := rfl

@[simp] theorem State.setInbox_v (q : List Command) : (s.setInbox q).v = s.v := rfl
@[simp] theorem State.setInbox_i (q : List Command) : (s.setInbox q).i = s.i := rfl
@[simp] theorem State.setInbox_pc (q : List Command) : (s.setInbox q).pc = s.pc := rfl
@[simp] theorem State.setInbox_stack (q : List Command) : (s.setInbox q).stack = s.stack := rfl
@[simp] theorem State.setInbox_sp (q : List Command) : (s.setInbox q).sp = s.sp := rfl
@[simp] theorem State.setInbox_keypad (q : List Command) : (s.setInbox q).keypad = s.keypad := rfl
@[simp] theorem State.setInbox_dt (q : List Command) : (s.setInbox q).dt = s.dt := rfl
@[simp] theorem State.setInbox_st (q : List Command) : (s.setInbox q).st = s.st := rfl
@[simp] theorem State.setInbox_fb (q : List Command) : (s.setInbox q).fb = s.fb := rfl
@[simp] theorem State.setInbox_dirty (q : List Command) : (s.setInbox q).dirty = s.dirty := rfl
@[simp] theorem State.setInbox_loaded (q : List Command) : (s.setInbox q).loaded = s.loaded := rfl
@[simp] theorem State.setInbox_progLen (q : List Command) : (s.setInbox q).progLen = s.progLen := rfl
@[simp] theorem State.setInbox_awaiting (q : List Command) : (s.setInbox q).awaiting = s.awaiting := rfl
@[simp] theorem State.setInbox_waitReg (q : List Command) : (s.setInbox q).waitReg = s.waitReg := rfl
@[simp] theorem State.setInbox_keyPrev (q : List Command) : (s.setInbox q).keyPrev = s.keyPrev := rfl
@[simp] theorem State.setInbox_mem (q : List Command) : (s.setInbox q).mem = s.mem := rfl
@[simp] theorem State.setInbox_rndIndex (q : List Command) : (s.setInbox q).rndIndex = s.rndIndex := rfl
@[simp] theorem State.setInbox_inbox (q : List Command) : (s.setInbox q).inbox = q := rfl
@[simp] theorem State.setInbox_reg (q : List Command) (r : Reg) : (s.setInbox q).reg r = s.reg r := rfl

@[simp] theorem State.advance_eq : s.advance = s.goto (s.pc + 2) := rfl

@[simp] theorem State.setFlag_eq (c : Bool) : s.setFlag c = s.setReg vf (flagByte c) := rfl

@[simp] theorem State.setResultAndFlag_eq (x : Reg) (b : Byte) (c : Bool) :
    s.setResultAndFlag x b c = (s.setReg x b).setReg vf (flagByte c) := rfl

theorem State.skipIf_eq (c : Bool) : s.skipIf c = s.goto (if c then s.pc + 4 else s.pc + 2) := by
  cases c <;> rfl

@[simp] theorem State.reg_setReg (x r : Reg) (b : Byte) : (s.setReg x b).reg r = if r = x then b else s.reg r := by
  simp [State.reg, State.setReg, Vector.getElem_set, Fin.ext_iff, eq_comm]

@[simp] theorem State.reg_setFirstRegs (bs : List Byte) (r : Reg) :
    (s.setFirstRegs bs).reg r = bs.getD r.val (s.reg r) := by
  simp [State.reg, State.setFirstRegs]

end Sys2Proof.Machine
end

