-- ==== Sys2Proof/Laws/Ops.lean ====
section
/-! SUPPORT. What each shared operation can do, said once: the range check, the stack, operands and the least key. -/

namespace Sys2Proof.Machine

/-! ## The range check -/

theorem withinMemory_next {last : Nat} {t u : State} :
    withinMemory last t = .next u ↔ last ≤ 0xFFF ∧ u = t := by
  unfold withinMemory raise
  by_cases h : last > Config.topAddress
  · simp only [h, if_true, reduceCtorEq, false_iff, not_and]; intro h'; exact absurd h (by simp; omega)
  · simp only [h, if_false, Host.Outcome.next.injEq]
    exact ⟨fun e => ⟨by simpa using h, e.symm⟩, fun e => e.2.symm⟩

theorem withinMemory_fault {last : Nat} {t : State} {f : Fault} :
    withinMemory last t = .fault f ↔ last > 0xFFF ∧ f = .memoryOutOfBounds last := by
  unfold withinMemory raise
  by_cases h : last > 0xFFF
  · simp [h, eq_comm]
  · simp [h]

theorem withinMemory_ne_refused {last : Nat} {t : State} {r : Refusal} : withinMemory last t ≠ .refused r := by
  unfold withinMemory raise; split <;> simp

theorem withinMemory_of_le {last : Nat} (t : State) (h : last ≤ 0xFFF) : withinMemory last t = .next t :=
  withinMemory_next.2 ⟨h, rfl⟩

/-! ## The stack -/

theorem State.push_of_lt {s : State} (a : Word) (h : s.sp.val < 16) :
    s.push a = some (s.setStack (s.stack.set s.sp.val a h) ⟨s.sp.val + 1, Nat.succ_lt_succ h⟩) := by
  simp [State.push, h]

theorem State.push_eq_some {s t : State} {a : Word} (h : s.push a = some t) : ∃ hlt : s.sp.val < 16,
    t = s.setStack (s.stack.set s.sp.val a hlt) ⟨s.sp.val + 1, Nat.succ_lt_succ hlt⟩ := by
  unfold State.push at h
  split at h
  · rename_i hlt; exact ⟨hlt, (Option.some.inj h).symm⟩
  · cases h

theorem State.push_eq_none {s : State} {a : Word} : s.push a = none ↔ s.sp.val = 16 := by
  have := s.sp.isLt
  unfold State.push
  by_cases h : s.sp.val < Config.stackDepth
  · simp only [h, dite_true, reduceCtorEq, false_iff]; simp at h; omega
  · simp only [h, dite_false, true_iff]; simp at h; omega

theorem State.pop_eq_none {s : State} : s.pop = none ↔ s.sp.val = 0 := by
  unfold State.pop; split <;> simp_all

theorem State.pop_eq_some {s t : State} {a : Word} (h : s.pop = some (a, t)) :
    ∃ (hlt : s.sp.val - 1 < 16), s.sp.val ≠ 0 ∧ a = s.stack[s.sp.val - 1] ∧
      t = s.setStack s.stack ⟨s.sp.val - 1, Nat.lt_succ_of_lt hlt⟩ := by
  unfold State.pop at h
  split at h
  · cases h
  · rename_i h0
    have := s.sp.isLt
    obtain ⟨rfl, rfl⟩ := Prod.mk.inj (Option.some.inj h)
    exact ⟨by omega, h0, rfl, rfl⟩

theorem State.pop_of_eq_succ {s : State} (j : Fin 16) (h : s.sp.val = j.val + 1) :
    s.pop = some (s.stack[j], s.setStack s.stack ⟨j.val, Nat.lt_succ_of_lt j.isLt⟩) := by
  simp [State.pop, h]

/-! ## Operands -/

@[simp] theorem toNat_zextAddr (nnn : Addr) : (zextAddr nnn).toNat = nnn.toNat := by
  simp [zextAddr]; omega

@[simp] theorem toNat_zextByte (b : Byte) : (zextByte b).toNat = b.toNat := by
  simp [zextByte]; omega

@[simp] theorem val_lowNibble (b : Byte) : (lowNibble b).val = b.toNat % 16 := by
  change (b.extractLsb' 0 4).toNat = _
  simp [BitVec.extractLsb'_toNat]

@[simp] theorem toNat_glyphAddress (d : Reg) : (glyphAddress d).toNat = 0x50 + 5 * d.val := by
  have := d.isLt
  simp [glyphAddress]; omega

@[simp] theorem length_decimalDigits (a : Byte) : (decimalDigits a).length = 3 := by simp [decimalDigits]

@[simp] theorem State.length_firstRegs (s : State) (x : Reg) : (s.firstRegs x).length = x.val + 1 := by
  have := x.isLt
  simp [State.firstRegs]

theorem State.getD_firstRegs (s : State) (x r : Reg) (h : r.val ≤ x.val) (d : Byte) :
    (s.firstRegs x).getD r.val d = s.reg r := by
  have := x.isLt
  simp [State.firstRegs, State.reg, List.getD, show r.val < x.val + 1 by omega]

/-! ## The least key -/

theorem leastKey_eq_some {q : Keys} {k : Reg} :
    leastKey q = some k ↔ q.getLsbD k.val = true ∧ ∀ j < k, q.getLsbD j.val = false :=
  Fin.find?_eq_some_iff

theorem leastKey_eq_none {q : Keys} : leastKey q = none ↔ q = 0#16 := by
  rw [leastKey, Fin.find?_eq_none_iff]
  constructor
  · intro h
    apply BitVec.eq_of_getLsbD_eq
    intro i hi
    simpa using h ⟨i, hi⟩
  · rintro rfl k; simp

end Sys2Proof.Machine
end

