-- ==== Sys2Proof/Laws/Cycle.lean ====
section
/-! SUPPORT. What a RunCycle, a command and a step can do, said once. -/

namespace Sys2Proof.Machine

theorem fetchWord_eq_none {s : State} : fetchWord s = none ↔ s.pc.toNat + 1 > 0xFFF := by
  unfold fetchWord; split <;> simp_all

theorem fetchWord_of_le {s : State} (h : s.pc.toNat + 1 ≤ 0xFFF) : fetchWord s = some (wordAtPc s) := by
  unfold fetchWord wordAtPc
  rw [if_neg (by simp; omega)]

/-- Where the cycle gets as far as an instruction, it is that instruction's execution. -/
theorem runCycle_of_decode {s : State} {i : Instr} (h : CanFetch s) (hi : decodeWord (wordAtPc s) = some i) :
    runCycle s = exec i s := by
  obtain ⟨hl, ha, hp⟩ := h
  simp [runCycle, hl, ha, fetchWord_of_le hp, hi]

/-- A cycle that completes is a key-wait poll or one instruction's execution. -/
theorem runCycle_next {s t : State} (h : runCycle s = .next t) : s.loaded = true ∧
    ((s.awaiting = true ∧ t = keyWaitPoll s) ∨
      (CanFetch s ∧ ∃ i, decodeWord (wordAtPc s) = some i ∧ exec i s = .next t)) := by
  unfold runCycle at h
  split at h
  · cases h
  · rename_i hl
    have hl : s.loaded = true := by simpa using hl
    refine ⟨hl, ?_⟩
    split at h
    · rename_i ha
      exact .inl ⟨ha, (Host.Outcome.next.inj h).symm⟩
    · rename_i ha
      have ha : s.awaiting = false := by simpa using ha
      by_cases hp : s.pc.toNat + 1 ≤ 0xFFF
      · rw [fetchWord_of_le hp] at h
        dsimp only at h
        split at h
        · cases h
        · rename_i i hi
          exact .inr ⟨⟨hl, ha, hp⟩, i, hi, h⟩
      · rw [fetchWord_eq_none.2 (by omega)] at h
        cases h

/-- The key-wait poll completes the wait with the least newly pressed key, or records the keypad. -/
theorem keyWaitPoll_cases (s : State) :
    (∃ k, leastKey s.newlyPressed = some k ∧
      keyWaitPoll s = ((s.setReg s.waitReg (BitVec.ofNat 8 k.val)).resume.goto (s.pc + 2))) ∨
    (s.newlyPressed = 0#16 ∧ keyWaitPoll s = s.recordKeys) := by
  unfold keyWaitPoll
  cases h : leastKey s.newlyPressed with
  | none => exact .inr ⟨leastKey_eq_none.1 h, rfl⟩
  | some k => exact .inl ⟨k, rfl, rfl⟩

/-! ## Commands -/

theorem load_next {buf : Option (List Byte)} {s t : State} (h : load buf s = .next t) :
    ∃ bytes, buf = some bytes ∧ bytes.length ≤ 3584 ∧
      t = { s.storeBytes 0x200 bytes with loaded := true, progLen := bytes.length } := by
  cases buf with
  | none => cases h
  | some bytes =>
    simp only [load, raise] at h
    split at h
    · cases h
    · rename_i hb
      exact ⟨bytes, rfl, by simpa using hb, (Host.Outcome.next.inj h).symm⟩

theorem start_next {s t : State} (h : start s = .next t) : s.loaded = true ∧ t = s := by
  unfold start raise at h
  split at h
  · cases h
  · rename_i hl; exact ⟨by simpa using hl, (Host.Outcome.next.inj h).symm⟩

/-- A step is a RunCycle with nothing waiting, or the oldest command that waits. -/
theorem step_next {s t : State} (h : step s = .next t) :
    (s.inbox = [] ∧ runCycle s = .next t) ∨
      ∃ c rest, s.inbox = c :: rest ∧ perform c (s.setInbox rest) = .next t := by
  unfold step serveNext at h
  split at h
  · rename_i hq; exact .inl ⟨hq, h⟩
  · rename_i c rest hq; exact .inr ⟨c, rest, hq, h⟩

@[simp] theorem step_of_inbox_nil {s : State} (h : s.inbox = []) : step s = runCycle s := by
  simp [step, serveNext, h]

@[simp] theorem step_of_inbox_cons {s : State} {c : Command} {rest : List Command} (h : s.inbox = c :: rest) :
    step s = perform c (s.setInbox rest) := by
  simp [step, serveNext, h]

/-! ## Runs -/

theorem coreRun_succ_of_next {M : Host.Core} {s t : M.State} (k : Nat) (h : M.step s = .next t) :
    M.run (k + 1) s = M.run k t := by simp [Host.Core.run, h]

theorem coreRun_succ_of_fault {M : Host.Core} {s : M.State} {f : M.Fault} (k : Nat) (h : M.step s = .fault f) :
    M.run (k + 1) s = .fault f := by simp [Host.Core.run, h]

theorem run_succ_of_next {s t : State} (k : Nat) (h : step s = .next t) :
    Sys2Proof.core.run (k + 1) s = Sys2Proof.core.run k t :=
  coreRun_succ_of_next (M := Sys2Proof.core) k h

theorem run_succ_of_fault {s : State} {f : Fault} (k : Nat) (h : step s = .fault f) :
    Sys2Proof.core.run (k + 1) s = .fault f :=
  coreRun_succ_of_fault (M := Sys2Proof.core) k h

end Sys2Proof.Machine
end

