-- ==== Sys2Proof/Laws/Exec.lean ====
section
/-! SUPPORT. What the instructions that branch on the state have done when they complete, and one decrement. -/

namespace Sys2Proof.Machine

theorem ret_next {s t : State} (h : exec .ret s = .next t) : ∃ j : Fin 16, s.sp.val = j.val + 1 ∧
    t = (s.setStack s.stack ⟨j.val, Nat.lt_succ_of_lt j.isLt⟩).goto s.stack[j] := by
  simp only [exec, execRet] at h
  split at h
  · rename_i a u hpop
    obtain ⟨hlt, h0, rfl, rfl⟩ := State.pop_eq_some hpop
    exact ⟨⟨_, hlt⟩, by simp; omega, (Host.Outcome.next.inj h).symm⟩
  · cases h

theorem call_next {nnn : Addr} {s t : State} (h : exec (.call nnn) s = .next t) : ∃ hlt : s.sp.val < 16,
    t = (s.setStack (s.stack.set s.sp.val (s.pc + 2) hlt) ⟨s.sp.val + 1, Nat.succ_lt_succ hlt⟩).goto
      (zextAddr nnn) := by
  simp only [exec, execCall] at h
  split at h
  · rename_i u hpush
    obtain ⟨hlt, rfl⟩ := State.push_eq_some hpush
    exact ⟨hlt, (Host.Outcome.next.inj h).symm⟩
  · cases h

theorem drw_next {x y : Reg} {n : Nibble} {s t : State} (h : exec (.drw x y n) s = .next t) :
    (n ≠ 0#4 → s.i.toNat + n.toNat - 1 ≤ 0xFFF) ∧ t = s.finishDrawing (s.drawing x y n) := by
  simp only [exec, execDrw] at h
  split at h
  · rename_i hn; exact ⟨fun h0 => absurd hn h0, (Host.Outcome.next.inj h).symm⟩
  · exact ⟨fun _ => (withinMemory_next.1 h).1, (withinMemory_next.1 h).2⟩

@[simp] theorem toNat_countDown (b : Byte) : (countDown b).toNat = b.toNat - 1 := by
  unfold countDown
  split
  · rename_i h; simp [h]
  · rename_i h
    have h0 : b.toNat ≠ 0 := fun e => h (BitVec.eq_of_toNat_eq e)
    rw [BitVec.toNat_sub_of_le (by simp [BitVec.le_def]; omega)]
    rfl

end Sys2Proof.Machine
end

