-- ==== Sys2Proof/Laws/Framebuffer.lean ====
section
/-! SUPPORT. The framebuffer: a cell after a flip, after a row and after a sprite, and when a cell is lit. -/

namespace Sys2Proof.Machine

@[simp] theorem Framebuffer.cell_blank (x : Fin 64) (y : Fin 32) : Framebuffer.blank.cell x y = false := by
  simp [Framebuffer.cell, Framebuffer.blank]

theorem Framebuffer.ext_cells {f g : Framebuffer} (h : ∀ x y, f.cell x y = g.cell x y) : f = g := by
  apply Vector.ext
  intro y hy
  apply Vector.ext
  intro x hx
  exact h ⟨x, hx⟩ ⟨y, hy⟩

theorem Framebuffer.cell_flip (f : Framebuffer) (px x : Fin 64) (py y : Fin 32) :
    (f.flip px py).cell x y = if x = px ∧ y = py then !f.cell px py else f.cell x y := by
  by_cases hy : y = py
  · subst hy
    by_cases hx : x = px
    · subst hx; simp [Framebuffer.cell, Framebuffer.flip]
    · have : px.val ≠ x.val := fun e => hx (Fin.ext e.symm)
      simp [Framebuffer.cell, Framebuffer.flip, hx, this]
  · have : py.val ≠ y.val := fun e => hy (Fin.ext e.symm)
    simp [Framebuffer.cell, Framebuffer.flip, hy, this]

theorem Framebuffer.anyLit_iff (f : Framebuffer) : f.anyLit = true ↔ ∃ x y, f.cell x y = true := by
  simp only [Framebuffer.anyLit, List.any_eq_true, List.mem_finRange, true_and]
  exact exists_comm

theorem Framebuffer.anyLit_eq (f : Framebuffer) : f.anyLit = decide (Framebuffer.blank ≠ f) := by
  rw [Bool.eq_iff_iff, Framebuffer.anyLit_iff, decide_eq_true_iff]
  constructor
  · rintro ⟨x, y, h⟩ e; rw [← e] at h; simp at h
  · intro h
    by_contra hn
    push Not at hn
    exact h (Framebuffer.ext_cells fun x y => by simpa using (hn x y).symm)

/-! ## What a drawing does, cell by cell -/

/-- `d` is `e` with exactly the cells of `P` inverted, and its two flags record what that did. -/
structure Drawing.Inverts (e d : Drawing) (P : Fin 64 → Fin 32 → Prop) : Prop where
  cells : ∀ x y, d.fb.cell x y = true ↔ (e.fb.cell x y = true ∧ ¬P x y) ∨ (e.fb.cell x y = false ∧ P x y)
  collision : d.collision = true ↔ e.collision = true ∨ ∃ x y, P x y ∧ e.fb.cell x y = true
  changed : d.changed = true ↔ e.changed = true ∨ ∃ x y, P x y

theorem Drawing.inverts_refl (e : Drawing) : e.Inverts e fun _ _ => False :=
  ⟨fun x y => by simp, by simp, by simp⟩

theorem Drawing.inverts_congr {e d : Drawing} {P Q : Fin 64 → Fin 32 → Prop} (h : e.Inverts d P)
    (hPQ : ∀ x y, P x y ↔ Q x y) : e.Inverts d Q := by
  obtain rfl : P = Q := by funext x y; exact propext (hPQ x y)
  exact h

/-- Two drawings that touch different cells, one after the other. -/
theorem Drawing.Inverts.trans {e d c : Drawing} {P Q : Fin 64 → Fin 32 → Prop} (h : e.Inverts d P)
    (k : d.Inverts c Q) (hdis : ∀ x y, P x y → ¬Q x y) : e.Inverts c fun x y => P x y ∨ Q x y := by
  have old : ∀ x y, Q x y → (d.fb.cell x y = true ↔ e.fb.cell x y = true) := fun x y hq => by
    have hp : ¬P x y := fun hp => hdis x y hp hq
    rw [h.cells]; simp [hp]
  refine ⟨fun x y => ?_, ?_, ?_⟩
  · rw [k.cells]
    by_cases hq : Q x y
    · have := old x y hq
      cases hd : d.fb.cell x y <;> cases he : e.fb.cell x y <;> simp_all
    · have := h.cells x y
      cases hd : d.fb.cell x y <;> simp_all
  · rw [k.collision, h.collision]
    constructor
    · rintro ((h1 | ⟨x, y, hp, hc⟩) | ⟨x, y, hq, hc⟩)
      · exact .inl h1
      · exact .inr ⟨x, y, .inl hp, hc⟩
      · exact .inr ⟨x, y, .inr hq, (old x y hq).1 hc⟩
    · rintro (h1 | ⟨x, y, hp | hq, hc⟩)
      · exact .inl (.inl h1)
      · exact .inl (.inr ⟨x, y, hp, hc⟩)
      · exact .inr ⟨x, y, hq, (old x y hq).2 hc⟩
  · rw [k.changed, h.changed]
    constructor
    · rintro ((h1 | ⟨x, y, hp⟩) | ⟨x, y, hq⟩)
      · exact .inl h1
      · exact .inr ⟨x, y, .inl hp⟩
      · exact .inr ⟨x, y, .inr hq⟩
    · rintro (h1 | ⟨x, y, hp | hq⟩)
      · exact .inl (.inl h1)
      · exact .inl (.inr ⟨x, y, hp⟩)
      · exact .inr ⟨x, y, hq⟩

theorem Drawing.inverts_plot (e : Drawing) (px py : Nat) :
    e.Inverts (e.plot px py) fun x y => x = column px ∧ y = row py := by
  refine ⟨fun x y => ?_, ?_, ?_⟩
  · simp only [Drawing.plot, Framebuffer.cell_flip]
    by_cases h : x = column px ∧ y = row py
    · obtain ⟨rfl, rfl⟩ := h; simp
    · simp [h]
  · simp [Drawing.plot]
  · simp [Drawing.plot]

/-- The columns of the first `k` bits of a sprite byte that are 1. -/
theorem Drawing.inverts_bits (b : Byte) (x0 py : Nat) (e : Drawing) : ∀ k, k ≤ 8 →
    e.Inverts ((List.range k).foldl (fun e c => if b.getLsbD (7 - c) then e.plot (x0 + c) py else e) e)
      fun x y => y = row py ∧ ∃ c < k, b.getLsbD (7 - c) = true ∧ x = column (x0 + c) := by
  intro k
  induction k with
  | zero => intro _; exact Drawing.inverts_congr (Drawing.inverts_refl e) fun x y => by simp
  | succ k ih =>
    intro hk
    rw [List.range_succ, List.foldl_append, List.foldl_cons, List.foldl_nil]
    by_cases hb : b.getLsbD (7 - k) = true
    · simp only [hb, if_true]
      refine Drawing.inverts_congr ((ih (by omega)).trans (Drawing.inverts_plot _ (x0 + k) py) ?_) ?_
      · rintro x y ⟨-, c, hc, -, rfl⟩ ⟨h, -⟩
        have := congrArg Fin.val h
        simp only [column] at this
        omega
      · intro x y
        constructor
        · rintro (⟨hy, c, hc, hbit, hx⟩ | ⟨hx, hy⟩)
          · exact ⟨hy, c, by omega, hbit, hx⟩
          · exact ⟨hy, k, by omega, hb, hx⟩
        · rintro ⟨hy, c, hc, hbit, hx⟩
          by_cases hck : c = k
          · subst hck; exact .inr ⟨hx, hy⟩
          · exact .inl ⟨hy, c, by omega, hbit, hx⟩
    · simp only [hb]
      refine Drawing.inverts_congr (ih (by omega)) fun x y => ?_
      constructor
      · rintro ⟨hy, c, hc, hbit, hx⟩
        exact ⟨hy, c, by omega, hbit, hx⟩
      · rintro ⟨hy, c, hc, hbit, hx⟩
        by_cases hck : c = k
        · subst hck; exact absurd hbit hb
        · exact ⟨hy, c, by omega, hbit, hx⟩

theorem Drawing.inverts_plotRow (e : Drawing) (b : Byte) (x0 py : Nat) :
    e.Inverts (e.plotRow b x0 py)
      fun x y => y = row py ∧ ∃ c < 8, b.getLsbD (7 - c) = true ∧ x = column (x0 + c) :=
  Drawing.inverts_bits b x0 py e 8 (Nat.le_refl 8)

/-- A sprite of at most 32 rows inverts exactly the cells under its 1 bits, each wrapped on both axes: no cell is
touched twice (R100). -/
theorem Drawing.inverts_plotSprite (x0 : Nat) : ∀ (bs : List Byte) (y0 : Nat) (e : Drawing), bs.length ≤ 32 →
    e.Inverts (e.plotSprite x0 y0 bs) fun x y => ∃ (r : Nat) (hr : r < bs.length), y = row (y0 + r) ∧
      ∃ c < 8, bs[r].getLsbD (7 - c) = true ∧ x = column (x0 + c) := by
  intro bs
  induction bs with
  | nil => intro y0 e _; exact Drawing.inverts_congr (Drawing.inverts_refl e) fun x y => by simp
  | cons b bs ih =>
    intro y0 e hlen
    simp only [List.length_cons] at hlen
    refine Drawing.inverts_congr ((Drawing.inverts_plotRow e b x0 y0).trans (ih (y0 + 1) _ (by omega)) ?_) ?_
    · rintro x y ⟨rfl, -⟩ ⟨r, hr, h, -⟩
      have := congrArg Fin.val h
      simp only [row] at this
      omega
    · intro x y
      constructor
      · rintro (⟨hy, hc⟩ | ⟨r, hr, hy, hc⟩)
        · exact ⟨0, by simp, by simpa using hy, by simpa using hc⟩
        · exact ⟨r + 1, by simpa using hr, by rw [hy, Nat.add_right_comm, Nat.add_assoc], by simpa using hc⟩
      · rintro ⟨r, hr, hy, hc⟩
        cases r with
        | zero => exact .inl ⟨by simpa using hy, by simpa using hc⟩
        | succ r =>
          exact .inr ⟨r, by simpa using hr, by rw [hy, Nat.add_right_comm, Nat.add_assoc], by simpa using hc⟩

end Sys2Proof.Machine
end

