-- ==== Sys2Proof/Laws/PerInstr.lean ====
section
/-! SUPPORT. The family OpcodeRow: an instruction's encoded word selects its own row of R51's table. -/

namespace Sys2Proof.Laws.OpcodeRow

/-- The encoded word matches the mask and pattern of the instruction's row of R51. -/
def Statement (i : Instr) : Prop := encodeWord i &&& i.row.mask = i.row.pattern

theorem nibble_and_ones (b : Nibble) : b &&& 0xF#4 = b := by revert b; decide

theorem byte_and_ones (b : Byte) : b &&& 0xFF#8 = b := BitVec.and_allOnes

/-- Masking two fields laid side by side masks each. -/
theorem append_and_append {m n : Nat} {a k a' : BitVec m} {b l b' : BitVec n} (h : a &&& k = a') (g : b &&& l = b') :
    (a ++ b) &&& (k ++ l) = a' ++ b' := by rw [BitVec.and_append, h, g]

theorem mask_family (op : Nibble) (nnn : Addr) : formatNNN op nnn &&& 0xF000#16 = op ++ 0x000#12 :=
  append_and_append (k := 0xF#4) (nibble_and_ones op) BitVec.and_zero

theorem mask_family_XNN (op : Nibble) (x : Reg) (nn : Byte) :
    formatXNN op x nn &&& 0xF000#16 = op ++ 0x000#12 :=
  mask_family op (nibbleOfReg x ++ nn)

theorem mask_family_XYN (op : Nibble) (x y : Reg) (n : Nibble) :
    formatXYN op x y n &&& 0xF000#16 = op ++ 0x000#12 :=
  mask_family op (nibbleOfReg x ++ (nibbleOfReg y ++ n))

theorem mask_low_byte (op : Nibble) (x : Reg) (nn : Byte) :
    formatXNN op x nn &&& 0xF0FF#16 = op ++ (0x0#4 ++ nn) :=
  append_and_append (k := 0xF#4) (l := 0x0#4 ++ 0xFF#8) (nibble_and_ones op)
    (append_and_append BitVec.and_zero (byte_and_ones nn))

theorem mask_low_nibble (op : Nibble) (x y : Reg) (n : Nibble) :
    formatXYN op x y n &&& 0xF00F#16 = op ++ (0x0#4 ++ (0x0#4 ++ n)) :=
  append_and_append (k := 0xF#4) (l := 0x0#4 ++ (0x0#4 ++ 0xF#4)) (nibble_and_ones op)
    (append_and_append BitVec.and_zero (append_and_append BitVec.and_zero (nibble_and_ones n)))

theorem sys (nnn : Addr) : Statement (.sys nnn) := mask_family 0x0#4 nnn
theorem cls : Statement .cls := by unfold Statement; decide
theorem ret : Statement .ret := by unfold Statement; decide
theorem jp (nnn : Addr) : Statement (.jp nnn) := mask_family 0x1#4 nnn
theorem call (nnn : Addr) : Statement (.call nnn) := mask_family 0x2#4 nnn
theorem seByte (x : Reg) (nn : Byte) : Statement (.seByte x nn) := mask_family_XNN 0x3#4 x nn
theorem sneByte (x : Reg) (nn : Byte) : Statement (.sneByte x nn) := mask_family_XNN 0x4#4 x nn
theorem seReg (x y : Reg) : Statement (.seReg x y) := mask_low_nibble 0x5#4 x y 0x0#4
theorem ldByte (x : Reg) (nn : Byte) : Statement (.ldByte x nn) := mask_family_XNN 0x6#4 x nn
theorem addByte (x : Reg) (nn : Byte) : Statement (.addByte x nn) := mask_family_XNN 0x7#4 x nn
theorem ldReg (x y : Reg) : Statement (.ldReg x y) := mask_low_nibble 0x8#4 x y 0x0#4
theorem orReg (x y : Reg) : Statement (.orReg x y) := mask_low_nibble 0x8#4 x y 0x1#4
theorem andReg (x y : Reg) : Statement (.andReg x y) := mask_low_nibble 0x8#4 x y 0x2#4
theorem xorReg (x y : Reg) : Statement (.xorReg x y) := mask_low_nibble 0x8#4 x y 0x3#4
theorem addReg (x y : Reg) : Statement (.addReg x y) := mask_low_nibble 0x8#4 x y 0x4#4
theorem subReg (x y : Reg) : Statement (.subReg x y) := mask_low_nibble 0x8#4 x y 0x5#4
theorem shr (x y : Reg) : Statement (.shr x y) := mask_low_nibble 0x8#4 x y 0x6#4
theorem subnReg (x y : Reg) : Statement (.subnReg x y) := mask_low_nibble 0x8#4 x y 0x7#4
theorem shl (x y : Reg) : Statement (.shl x y) := mask_low_nibble 0x8#4 x y 0xE#4
theorem sneReg (x y : Reg) : Statement (.sneReg x y) := mask_low_nibble 0x9#4 x y 0x0#4
theorem ldI (nnn : Addr) : Statement (.ldI nnn) := mask_family 0xA#4 nnn
theorem jpV0 (nnn : Addr) : Statement (.jpV0 nnn) := mask_family 0xB#4 nnn
theorem rnd (x : Reg) (nn : Byte) : Statement (.rnd x nn) := mask_family_XNN 0xC#4 x nn
theorem drw (x y : Reg) (n : Nibble) : Statement (.drw x y n) := mask_family_XYN 0xD#4 x y n
theorem skp (x : Reg) : Statement (.skp x) := mask_low_byte 0xE#4 x 0x9E#8
theorem sknp (x : Reg) : Statement (.sknp x) := mask_low_byte 0xE#4 x 0xA1#8
theorem ldVxDt (x : Reg) : Statement (.ldVxDt x) := mask_low_byte 0xF#4 x 0x07#8
theorem ldVxK (x : Reg) : Statement (.ldVxK x) := mask_low_byte 0xF#4 x 0x0A#8
theorem ldDtVx (x : Reg) : Statement (.ldDtVx x) := mask_low_byte 0xF#4 x 0x15#8
theorem ldStVx (x : Reg) : Statement (.ldStVx x) := mask_low_byte 0xF#4 x 0x18#8
theorem addI (x : Reg) : Statement (.addI x) := mask_low_byte 0xF#4 x 0x1E#8
theorem ldF (x : Reg) : Statement (.ldF x) := mask_low_byte 0xF#4 x 0x29#8
theorem ldB (x : Reg) : Statement (.ldB x) := mask_low_byte 0xF#4 x 0x33#8
theorem storeRegs (x : Reg) : Statement (.storeRegs x) := mask_low_byte 0xF#4 x 0x55#8
theorem loadRegs (x : Reg) : Statement (.loadRegs x) := mask_low_byte 0xF#4 x 0x65#8

end Sys2Proof.Laws.OpcodeRow
end

