-- ==== Sys2Proof/Tests/Slice0.lean ====
section
/-! SUPPORT. Tests. Expected values are the spec's: the encodings of R51 and the vectors of 95_test_vectors.md, named
in each comment; and for every obligation with hypotheses, states that meet them. -/

namespace Sys2Proof.Tests

open Sys2Proof Sys2Proof.Machine

/-! ## Helpers -/

/-- The state a transition ends in. -/
def nextOf : Host.Outcome State Fault Refusal → Option State
  | .next t => some t
  | .fault _ => none
  | .refused _ => none

/-- The fault a transition ends in. -/
def faultOf : Host.Outcome State Fault Refusal → Option Fault
  | .next _ => none
  | .fault f => some f
  | .refused _ => none

theorem eq_fault_of_faultOf {o : Host.Outcome State Fault Refusal} {f : Fault} (h : faultOf o = some f) :
    o = .fault f := by
  cases o <;> simp_all [faultOf]

theorem exists_next_of_isSome {o : Host.Outcome State Fault Refusal} (h : (nextOf o).isSome = true) :
    ∃ t, o = .next t := by
  cases o <;> simp_all [nextOf]

/-- Reset with a program loaded, as the vectors start. -/
def start : State := { State.reset with loaded := true }

/-- `start` with registers set. -/
def regs (rs : List (Reg × Byte)) : State := rs.foldl (fun s r => s.setReg r.1 r.2) start

/-- A state with bytes stored. -/
def bytesAt (s : State) (a : Nat) (bs : List Byte) : State := s.storeBytes a bs

/-- A state with a word at `PC`. -/
def put (s : State) (w : Word) : State := bytesAt s s.pc.toNat (bytesOfWord w)

/-- A cycle that runs `w` in `s` completes in a state with the property. -/
def runs (s : State) (w : Word) (p : State → Bool) : Bool := ((nextOf (runCycle (put s w))).map p).getD false

/-- The fault of a cycle that runs `w` in `s`. -/
def faults (s : State) (w : Word) : Option Fault := faultOf (runCycle (put s w))

/-- The `n` bytes a state holds at `a`. -/
def bytes (s : State) (a n : Nat) : List Byte := s.mem.readBytes a n

/-- The columns of a row's cells that are 1. -/
def litRow (s : State) (y : Fin 32) : List Nat := ((List.finRange 64).filter fun x => s.fb.cell x y).map fun x => x.val

/-- A state with one cell turned over. -/
def flipped (s : State) (x : Fin 64) (y : Fin 32) : State := { s with fb := s.fb.flip x y }

/-! ## Well-formedness: the one check refuses its two ill-formed terms -/

theorem test_wellFormed_refuses_sys_0E0 : (Instr.sys 0x0E0).wellFormed = false := by decide
theorem test_wellFormed_refuses_sys_0EE : (Instr.sys 0x0EE).wellFormed = false := by decide
theorem test_wellFormed_accepts_sys_neighbours :
    (Instr.sys 0x0E1).wellFormed = true ∧ (Instr.sys 0x0EF).wellFormed = true := by decide

/-! ## Decoding: every row of R51, the word written out -/

theorem test_decode_family_0 : decodeWord 0x0E1A = some (.sys 0xE1A) ∧ decodeWord 0x00E0 = some .cls ∧
    decodeWord 0x00EE = some .ret ∧ decodeWord 0x0000 = some (.sys 0x000) := by decide
theorem test_decode_jumps : decodeWord 0x1ABC = some (.jp 0xABC) ∧ decodeWord 0x2ABC = some (.call 0xABC) ∧
    decodeWord 0xBABC = some (.jpV0 0xABC) := by decide
theorem test_decode_skips : decodeWord 0x3A05 = some (.seByte 10 0x05) ∧
    decodeWord 0x4A05 = some (.sneByte 10 0x05) ∧ decodeWord 0x5120 = some (.seReg 1 2) ∧
    decodeWord 0x9120 = some (.sneReg 1 2) := by decide
theorem test_decode_moves : decodeWord 0x6A2C = some (.ldByte 10 0x2C) ∧ decodeWord 0x8120 = some (.ldReg 1 2) ∧
    decodeWord 0xA300 = some (.ldI 0x300) ∧ decodeWord 0xFA29 = some (.ldF 10) ∧
    decodeWord 0xFA33 = some (.ldB 10) ∧ decodeWord 0xFA55 = some (.storeRegs 10) ∧
    decodeWord 0xFA65 = some (.loadRegs 10) := by decide
theorem test_decode_arith_registers : decodeWord 0x8121 = some (.orReg 1 2) ∧
    decodeWord 0x8122 = some (.andReg 1 2) ∧ decodeWord 0x8123 = some (.xorReg 1 2) ∧
    decodeWord 0x8124 = some (.addReg 1 2) ∧ decodeWord 0x8125 = some (.subReg 1 2) ∧
    decodeWord 0x8126 = some (.shr 1 2) ∧ decodeWord 0x8127 = some (.subnReg 1 2) ∧
    decodeWord 0x812E = some (.shl 1 2) := by decide
theorem test_decode_arith_rest : decodeWord 0x7A05 = some (.addByte 10 0x05) ∧
    decodeWord 0xCA0F = some (.rnd 10 0x0F) ∧ decodeWord 0xFA1E = some (.addI 10) := by decide
theorem test_decode_draw_and_input : decodeWord 0xD12F = some (.drw 1 2 0xF) ∧ decodeWord 0xEA9E = some (.skp 10) ∧
    decodeWord 0xEAA1 = some (.sknp 10) ∧ decodeWord 0xFA0A = some (.ldVxK 10) := by decide
theorem test_decode_timers : decodeWord 0xFA07 = some (.ldVxDt 10) ∧ decodeWord 0xFA15 = some (.ldDtVx 10) ∧
    decodeWord 0xFA18 = some (.ldStVx 10) := by decide
/-- F8 to F12: illegal words. -/
theorem test_decode_illegal_5_8_9 :
    decodeWord 0x5121 = none ∧ decodeWord 0x9121 = none ∧ decodeWord 0x8128 = none ∧
    decodeWord 0x8129 = none ∧ decodeWord 0x812A = none ∧ decodeWord 0x812B = none ∧
    decodeWord 0x812C = none ∧ decodeWord 0x812D = none ∧ decodeWord 0x812F = none := by decide
theorem test_decode_illegal_E_F :
    decodeWord 0xE19F = none ∧ decodeWord 0xE100 = none ∧ decodeWord 0xF1FF = none ∧
    decodeWord 0xF100 = none ∧ decodeWord 0xF175 = none ∧ decodeWord 0xF185 = none := by decide
/-- F5 and S16: the byte at the lower address is the high byte. -/
theorem test_decode_bytes_big_endian : decode [0x6A, 0x2C, 0x99] = .ok (.ldByte 10 0x2C, [0x99]) := by rfl
theorem test_decode_truncated : decode [0x6A] = .error .truncated := by rfl
theorem test_decodeTableWord : decodeTableWord 16 0xD125 = some (.drw 1 2 5) ∧ decodeTableWord 16 0x5121 = none := by
  decide

/-! ## The cycle -/

/-- F2 and F3. -/
theorem test_fetch_last_word : runs { start with pc := 0xFFE } 0x6001 (fun t => t.reg 0 == 1 && t.pc == 0x1000) = true ∧
    faultOf (runCycle { start with pc := 0x1000 }) = some (.memoryOutOfBounds 0x1000) := by decide
/-- F5: an odd `PC` is legal. -/
theorem test_fetch_odd_pc : runs { start with pc := 0x201 } 0x6A2C (fun t => t.reg 10 == 0x2C && t.pc == 0x203) = true := by
  decide
/-- F1, F4, F8. -/
theorem test_cycle_faults : faultOf (runCycle State.reset) = some .programNotLoaded ∧
    faultOf (runCycle { start with pc := 0xFFF }) = some (.memoryOutOfBounds 0xFFF) ∧
    faults start 0x5121 = some (.decodeFault 0x5121) := by decide
theorem test_withFetchWord_runs :
    ((nextOf (step (State.reset.withFetchWord 16 0x6A2C))).map fun t => t.reg 10) = some 0x2C := by decide
/-- R25: the first and the last glyph, and the zero after it. -/
theorem test_font : bytes State.reset 0x4F 6 = [0x00, 0xF0, 0x90, 0x90, 0x90, 0xF0] ∧
    bytes State.reset 0x9B 6 = [0xF0, 0x80, 0xF0, 0x80, 0x80, 0x00] := by decide

/-! ## Control flow -/

/-- C1. -/
theorem test_cls : runs (flipped start 3 4) 0x00E0 (fun t => litRow t 4 == [] && t.dirty && t.pc == 0x202) = true := by
  decide
/-- C3. -/
theorem test_ret : runs (start.setStack (start.stack.set 0 0x206) 1) 0x00EE
    (fun t => t.sp == 0 && t.pc == 0x206) = true := by decide
/-- C4. -/
theorem test_ret_underflow : faults start 0x00EE = some (.stackUnderflow 0x200) := by decide
/-- F6 and F7. -/
theorem test_sys : faults start 0x0000 = some (.decodeFault 0x0000) ∧ faults start 0x00E1 = some (.decodeFault 0x00E1) := by
  decide
/-- C5. -/
theorem test_jp : runs start 0x1ABC (fun t => t.pc == 0xABC) = true := by decide
/-- C7 and C8. -/
theorem test_call : runs start 0x220A (fun t => t.stack[0] == 0x202 && t.sp == 1 && t.pc == 0x20A) = true ∧
    runs (start.setStack start.stack 15) 0x2300
      (fun t => t.stack[15] == 0x202 && t.sp == 16 && t.pc == 0x300) = true := by decide
/-- C9. -/
theorem test_call_overflow : faults (start.setStack start.stack 16) 0x2300 = some (.stackOverflow 0x200) := by
  decide
/-- C10 and C11. -/
theorem test_se_byte : runs (regs [(0, 5)]) 0x3005 (fun t => t.pc == 0x204) = true ∧
    runs (regs [(0, 4)]) 0x3005 (fun t => t.pc == 0x202) = true := by decide
/-- C12 and C13. -/
theorem test_sne_byte : runs (regs [(1, 5)]) 0x4105 (fun t => t.pc == 0x202) = true ∧
    runs (regs [(1, 6)]) 0x4105 (fun t => t.pc == 0x204) = true := by decide
/-- C14 and C15. -/
theorem test_se_reg : runs (regs [(1, 7), (2, 7)]) 0x5120 (fun t => t.pc == 0x204) = true ∧
    runs (regs [(1, 7), (2, 8)]) 0x5120 (fun t => t.pc == 0x202) = true := by decide
/-- C16 and C17. -/
theorem test_sne_reg : runs (regs [(1, 7), (2, 8)]) 0x9120 (fun t => t.pc == 0x204) = true ∧
    runs (regs [(1, 7), (2, 7)]) 0x9120 (fun t => t.pc == 0x202) = true := by decide
/-- C19 and C20. -/
theorem test_jp_v0 : runs (regs [(0, 4)]) 0xB300 (fun t => t.pc == 0x304) = true ∧
    runs (regs [(0, 0xFF)]) 0xBFFF (fun t => t.pc == 0x10FE) = true := by decide

/-! ## Moves -/

/-- M1. -/
theorem test_ld_byte : runs start 0x6A2C (fun t => t.reg 10 == 0x2C && t.pc == 0x202) = true := by decide
/-- M3. -/
theorem test_ld_reg : runs (regs [(2, 9)]) 0x8120 (fun t => t.reg 1 == 9 && t.reg 2 == 9) = true := by decide
/-- M4. -/
theorem test_ld_i : runs start 0xA300 (fun t => t.i == 0x300) = true := by decide
/-- M5. -/
theorem test_store_regs : runs ((regs [(0, 1), (1, 2), (2, 3), (3, 9)]).setIndex 0x300) 0xF255
    (fun t => bytes t 0x300 4 == [1, 2, 3, 0] && t.i == 0x300) = true := by decide
/-- M17. -/
theorem test_store_regs_never_wraps : faults ((regs [(0, 1)]).setIndex 0xFFFF) 0xF055 =
    some (.memoryOutOfBounds 0xFFFF) := by decide
/-- M8. -/
theorem test_load_regs : runs (bytesAt ((regs [(3, 0x77)]).setIndex 0x300) 0x300 [2, 5, 4]) 0xF265
    (fun t => t.reg 0 == 2 && t.reg 1 == 5 && t.reg 2 == 4 && t.reg 3 == 0x77 && t.i == 0x300) = true := by
  decide
/-- M9 and M10. -/
theorem test_load_regs_edge :
    runs (bytesAt (start.setIndex 0xFFF) 0xFFF [0xAB]) 0xF065 (fun t => t.reg 0 == 0xAB) = true ∧
    faults (start.setIndex 0xFFF) 0xF165 = some (.memoryOutOfBounds 0x1000) := by decide
/-- M11. -/
theorem test_ld_b : runs ((regs [(0, 254)]).setIndex 0x300) 0xF033 (fun t => bytes t 0x300 3 == [2, 5, 4]) = true := by
  decide
/-- M13. -/
theorem test_ld_b_edge : faults ((regs [(0, 7)]).setIndex 0xFFE) 0xF033 = some (.memoryOutOfBounds 0x1000) ∧
    runs ((regs [(0, 7)]).setIndex 0xFFD) 0xF033 (fun t => bytes t 0xFFD 3 == [0, 0, 7]) = true := by decide
/-- M15. -/
theorem test_ld_f : runs (regs [(0, 0x1A)]) 0xF029 (fun t => t.i == 0x082) = true ∧
    runs (regs [(0, 0xFF)]) 0xF029 (fun t => t.i == 0x09B) = true := by decide

/-! ## Arithmetic and logic -/

/-- A2. -/
theorem test_add_byte : runs (regs [(0, 0xFF)]) 0x7001 (fun t => t.reg 0 == 0 && t.reg vf == 0) = true := by
  decide
/-- A28 and A29. -/
theorem test_add_i : runs ((regs [(1, 1)]).setIndex 0x0FFF) 0xF11E (fun t => t.i == 0x1000 && t.reg vf == 0) = true ∧
    runs ((regs [(1, 1)]).setIndex 0xFFFF) 0xF11E (fun t => t.i == 0) = true := by decide
/-- A3 and A4. -/
theorem test_add_reg : runs (regs [(1, 200), (2, 100)]) 0x8124 (fun t => t.reg 1 == 44 && t.reg vf == 1) = true ∧
    runs (regs [(1, 0x7F), (2, 0x80), (vf, 1)]) 0x8124 (fun t => t.reg 1 == 0xFF && t.reg vf == 0) = true := by
  decide
/-- A6 and A7: VF as the destination, and as the source. -/
theorem test_add_reg_vf : runs (regs [(vf, 0xF0), (1, 0x20)]) 0x8F14 (fun t => t.reg vf == 1) = true ∧
    runs (regs [(1, 1), (vf, 0xFF)]) 0x81F4 (fun t => t.reg 1 == 0 && t.reg vf == 1) = true := by decide
/-- A8 and A9. -/
theorem test_sub_reg : runs (regs [(1, 5), (2, 7)]) 0x8125 (fun t => t.reg 1 == 0xFE && t.reg vf == 0) = true ∧
    runs (regs [(1, 7), (2, 5)]) 0x8125 (fun t => t.reg 1 == 2 && t.reg vf == 1) = true := by decide
/-- A10: equal operands borrow nothing. -/
theorem test_sub_equal : runs (regs [(1, 7), (2, 7)]) 0x8125 (fun t => t.reg 1 == 0 && t.reg vf == 1) = true := by
  decide
/-- A13 and A14. -/
theorem test_subn_reg : runs (regs [(1, 5), (2, 7)]) 0x8127 (fun t => t.reg 1 == 2 && t.reg vf == 1) = true ∧
    runs (regs [(1, 7), (2, 5)]) 0x8127 (fun t => t.reg 1 == 0xFE && t.reg vf == 0) = true := by decide
/-- A15. -/
theorem test_or_reg : runs (regs [(1, 0xF0), (2, 0x0F), (vf, 1)]) 0x8121
    (fun t => t.reg 1 == 0xFF && t.reg vf == 1) = true := by decide
/-- A16. -/
theorem test_and_reg : runs (regs [(1, 0xFC), (2, 0x3F), (vf, 1)]) 0x8122
    (fun t => t.reg 1 == 0x3C && t.reg vf == 1) = true := by decide
/-- A17. -/
theorem test_xor_reg : runs (regs [(1, 0xFF), (2, 0x0F), (vf, 1)]) 0x8123
    (fun t => t.reg 1 == 0xF0 && t.reg vf == 1) = true := by decide
/-- A19 and A22. -/
theorem test_shr : runs (regs [(1, 0x05), (2, 0xFF)]) 0x8126
      (fun t => t.reg 1 == 0x02 && t.reg vf == 1 && t.reg 2 == 0xFF) = true ∧
    runs (regs [(vf, 0x02)]) 0x8F06 (fun t => t.reg vf == 0) = true := by decide
/-- A24 and A25. -/
theorem test_shl : runs (regs [(1, 0x81), (2, 0x00)]) 0x812E (fun t => t.reg 1 == 0x02 && t.reg vf == 1) = true ∧
    runs (regs [(1, 0x7F)]) 0x810E (fun t => t.reg 1 == 0xFE && t.reg vf == 0) = true := by decide
/-- A32: masked by 0 the result is 0 whatever the free byte. -/
theorem test_rnd_masked_by_zero (s : State) (x : Reg) : (nextOf (exec (.rnd x 0) s)).map (fun t => t.reg x) = some 0 := by
  simp [exec, execRnd, nextOf]

/-! ## Drawing -/

/-- W2: the horizontal wrap. -/
theorem test_drw_wraps : runs (bytesAt ((regs [(0, 60)]).setIndex 0x300) 0x300 [0xFF]) 0xD011
    (fun t => litRow t 0 == [0, 1, 2, 3, 60, 61, 62, 63] && t.reg vf == 0
      && t.dirty) = true := by decide
/-- W9: a collision. -/
theorem test_drw_collision : runs (bytesAt ((flipped start 0 0).setIndex 0x300) 0x300 [0xC0]) 0xD011
    (fun t => litRow t 0 == [1] && t.reg vf == 1 && t.dirty) = true := by decide
/-- W5 and W6. -/
theorem test_drw_edges : runs ((regs [(vf, 1)]).setIndex 0x300) 0xD010
      (fun t => litRow t 0 == [] && t.reg vf == 0 && !t.dirty) = true ∧
    faults ((regs [(vf, 1)]).setIndex 0xFFE) 0xD013 = some (.memoryOutOfBounds 0x1000) := by decide

/-! ## Input and timers -/

/-- I1 and I2. -/
theorem test_skp : runs { regs [(2, 5)] with keypad := 0x0020 } 0xE29E (fun t => t.pc == 0x204) = true ∧
    runs (regs [(2, 5)]) 0xE29E (fun t => t.pc == 0x202) = true := by decide
/-- I3 and I4. -/
theorem test_sknp : runs { regs [(2, 5)] with keypad := 0x0020 } 0xE2A1 (fun t => t.pc == 0x202) = true ∧
    runs (regs [(2, 5)]) 0xE2A1 (fun t => t.pc == 0x204) = true := by decide
/-- I9. -/
theorem test_ld_k_suspends : runs { start with keypad := 0x0002 } 0xF30A
    (fun t => t.awaiting && t.waitReg == 3 && t.keyPrev == 0x0002 && t.pc == 0x200) = true := by decide
/-- I12 and I10. -/
theorem test_key_wait_poll :
    (nextOf (runCycle { start.suspend 3 with keypad := 0x0140 })).map (fun t => (t.reg 3, t.awaiting, t.pc)) =
      some (6, false, 0x202) ∧
    (nextOf (runCycle (State.suspend { start with keypad := 0x0002 } 3))).map (fun t => (t.awaiting, t.pc)) =
      some (true, 0x200) := by decide
/-- T1. -/
theorem test_ld_vx_dt : runs { start with dt := 5 } 0xF407 (fun t => t.reg 4 == 5 && t.dt == 5) = true := by
  decide
/-- T4. -/
theorem test_ld_dt_vx : runs ({ regs [(3, 200)] with dt := 3 }) 0xF315 (fun t => t.dt == 200 && t.st == 0) = true := by
  decide
/-- T3. -/
theorem test_ld_st_vx : runs (regs [(3, 0x10)]) 0xF318 (fun t => t.st == 16 && t.dt == 0) = true := by decide

/-! ## Host commands -/

/-- K1 and K3. -/
theorem test_tick : ((tick { start with dt := 2, st := 1 }).dt, (tick { start with dt := 2, st := 1 }).st) = (1, 0) ∧
    ((tick start).dt, (tick start).st) = (0, 0) := by decide
/-- S4. -/
theorem test_load_too_large (s : State) (buf : List Byte) (h : buf.length = 3585) :
    faultOf (perform (.load (some buf)) s) = some (.programTooLarge 3585) := by
  simp [perform, load, raise, faultOf, h]
/-- H5. -/
theorem test_load_again : (nextOf (perform (.load (some [0x12, 0x00])) (bytesAt start 0x200 [0x60, 0x01, 0x12, 0x02]))).map
    (fun t => (bytes t 0x200 4, t.progLen)) = some ([0x12, 0x00, 0x12, 0x02], 2) := by decide
/-- S7. -/
theorem test_setDefaults : (serveAll [.load (some [0x12, 0x00]), .setDefaults, .queryLoaded] State.reset).1 =
    [.ok, .ok, .loaded false] ∧ (setDefaults (bytesAt start 0x200 [0x12])).mem = State.reset.mem := by decide
/-- H1, S1, S2: responses; a fault leaves the state and the host goes on. -/
theorem test_responses : (serveAll [.queryPC, .start, .writeDT 0xFF, .writeST 1, .readTimers] State.reset).1 =
    [.pc 0x200, .fault .programNotLoaded, .ok, .ok, .timers 255 1] := by decide
/-- H3. -/
theorem test_clearDirty : (clearDirty { start with dirty := true }).dirty = false := by decide

/-! ## Witnesses: for each obligation with hypotheses, states and operands that meet them all, at the edges of their
ranges -/

theorem witness_DecodeInvertsEncode : (Instr.sys 0x0E1).wellFormed = true ∧ (Instr.drw 15 0 15).wellFormed = true := by
  decide

theorem witness_DecodedWordIsItsEncoding : decodeWord 0x812E = some (.shl 1 2) := by decide

theorem witness_IllegalWordsAreTheListedOnes : decodeWord 0x500F = none ∧ decodeWord 0x8008 = none ∧
    decodeWord 0x9001 = none ∧ decodeWord 0xE000 = none ∧ decodeWord 0xFFFF = none := by decide

theorem witness_FetchReadsTwoBytesBigEndian :
    (fetchWord { start with pc := 0xFFF } = none ∧ (0xFFF#16).toNat ≥ 0xFFF) ∧
    fetchWord (put { start with pc := 0xFFE } 0x6001) = some 0x6001 ∧
    (start.loaded = true ∧ start.awaiting = false) := by decide

/-- A loaded state at the last fetchable `PC` with `LD V0, 1` there. -/
def lastWord : State := put { start with pc := 0xFFE } 0x6001

theorem witness_StepRunsTheDecodedInstruction :
    lastWord.loaded = true ∧ lastWord.awaiting = false ∧ lastWord.pc.toNat + 1 ≤ 0xFFF ∧
    decode [lastWord.mem.read lastWord.pc.toNat, lastWord.mem.read (lastWord.pc.toNat + 1)] = .ok (.ldByte 0 1, []) ∧
    lastWord.inbox = [] ∧ (lastWord.setInbox [.runCycle, .tick]).inbox = .runCycle :: [.tick] :=
  ⟨rfl, rfl, by decide, rfl, rfl, rfl⟩

theorem canFetch_lastWord : CanFetch lastWord := ⟨rfl, rfl, by decide⟩

theorem witness_CycleChecksInOrder :
    State.reset.loaded = false ∧
    ((start.suspend 3).loaded = true ∧ (start.suspend 3).awaiting = true) ∧
    (start.loaded = true ∧ start.awaiting = false ∧ (0xFFF#16).toNat + 1 > 0xFFF) ∧
    (CanFetch (put start 0x5121) ∧ decodeWord (wordAtPc (put start 0x5121)) = none) ∧
    (CanFetch lastWord ∧ decodeWord (wordAtPc lastWord) = some (.ldByte 0 1)) :=
  ⟨rfl, ⟨rfl, rfl⟩, by decide, ⟨⟨rfl, rfl, by decide⟩, by decide⟩, canFetch_lastWord, by decide⟩

theorem witness_InstructionsFaultExactlyWhereStated :
    FaultsWith .ret start (.stackUnderflow 0x200) ∧
    FaultsWith (.call 0x300) (start.setStack start.stack 16) (.stackOverflow 0x200) ∧
    FaultsWith (.storeRegs 1) (start.setIndex 0xFFF) (.memoryOutOfBounds 0x1000) ∧
    FaultsWith (.loadRegs 1) (start.setIndex 0xFFF) (.memoryOutOfBounds 0x1000) ∧
    FaultsWith (.ldB 0) (start.setIndex 0xFFE) (.memoryOutOfBounds 0x1000) ∧
    FaultsWith (.drw 0 1 2) (start.setIndex 0xFFF) (.memoryOutOfBounds 0x1000) ∧
    (∀ f, ¬FaultsWith (.drw 0 1 1) (start.setIndex 0xFFF) f) ∧ (∀ f, ¬FaultsWith (.drw 0 1 0) (start.setIndex 0xFFFF) f) := by
  refine ⟨⟨rfl, rfl⟩, ⟨rfl, rfl⟩, ⟨by decide, rfl⟩, ⟨by decide, rfl⟩, ⟨by decide, rfl⟩, ⟨by decide, by decide, rfl⟩, ?_, ?_⟩
  · rintro f ⟨-, h, -⟩; exact absurd h (by decide)
  · rintro f ⟨h, -⟩; exact absurd h (by decide)

theorem witness_MemoryOutOfBoundsInExactlyThesePlaces :
    faultOf (runCycle { start with pc := 0xFFF }) = some (.memoryOutOfBounds 0xFFF) ∧
    faults (start.setIndex 0xFFF) 0xF155 = some (.memoryOutOfBounds 0x1000) ∧
    faults (start.setIndex 0xFFF) 0xF165 = some (.memoryOutOfBounds 0x1000) ∧
    faults (start.setIndex 0xFFE) 0xF033 = some (.memoryOutOfBounds 0x1000) ∧
    faults (start.setIndex 0xFFF) 0xD012 = some (.memoryOutOfBounds 0x1000) ∧
    faults (start.setIndex 0xFFF) 0xF055 = none := by decide

theorem witness_FaultLeavesStateAndRepeats :
    serve .start State.reset = (.fault .programNotLoaded, State.reset) ∧
    serve (.load none) start = (.fault .invalidArgument, start) := ⟨rfl, rfl⟩

/-- Two bytes written in either order. -/
theorem witness_CanonicalMemoriesAreEqualByReads :
    (Memory.write (Memory.write [] 0x301 6) 0x300 5).wf = true ∧ (Memory.write (Memory.write [] 0x300 5) 0x301 6).wf = true ∧
    ∀ a, (Memory.write (Memory.write [] 0x301 6) 0x300 5).read a = (Memory.write (Memory.write [] 0x300 5) 0x301 6).read a :=
  ⟨by decide, by decide, fun _ => rfl⟩

/-- `LD [I], Vx` at `pc`, to store at `i`. -/
def storing (pc i : Word) : State := { start with pc := pc, i := i }

/-- Program P6: `LD [I], V1` at 0x206 over the word at 0x208; and a store that ends at 0xFFF. -/
theorem witness_StoreIsSeenByTheNextFetch :
    ((1 : Reg).val = (0 : Reg).val + 1 ∧ (1 : Reg) ≤ 1 ∧ (storing 0x206 0x208).pc.toNat + 3 ≤ 0xFFF ∧
      (storing 0x206 0x208).i.toNat + (0 : Reg).val = (storing 0x206 0x208).pc.toNat + 2 ∧
      (storing 0x206 0x208).i.toNat + (1 : Reg).val ≤ 0xFFF) ∧
    ((15 : Reg).val = (14 : Reg).val + 1 ∧ (15 : Reg) ≤ 15 ∧ (storing 0xFFC 0xFF0).pc.toNat + 3 ≤ 0xFFF ∧
      (storing 0xFFC 0xFF0).i.toNat + (14 : Reg).val = (storing 0xFFC 0xFF0).pc.toNat + 2 ∧
      (storing 0xFFC 0xFF0).i.toNat + (15 : Reg).val ≤ 0xFFF) := by decide

/-- A state in the middle of a program meets the invariant and a step from it completes. -/
theorem witness_EveryStepKeepsTheInvariant : StateInv lastWord ∧ ∃ t, step lastWord = .next t :=
  ⟨⟨by decide, by decide, by decide, by decide, by decide, by decide, by decide⟩,
    exists_next_of_isSome (by decide)⟩

theorem witness_ReturnPopsIntoPc : start.sp.val = 0 ∧
    (start.setStack start.stack 1).sp.val = (0 : Fin 16).val + 1 ∧
    (start.setStack start.stack 16).sp.val = (15 : Fin 16).val + 1 := by decide

theorem witness_CallPushesAndJumps : (start.setStack start.stack 16).sp.val = 16 ∧ start.sp.val = (0 : Fin 16).val ∧
    (start.setStack start.stack 15).sp.val = (15 : Fin 16).val := by decide

theorem witness_ReturnUndoesCall : start.sp.val < 16 ∧ (start.setStack start.stack 15).sp.val < 16 := by decide

/-- Both sides of the range check of `LD [I], Vx` and `LD Vx, [I]`. -/
theorem witness_StoreRegistersAtIndex_LoadRegistersFromIndex :
    (start.setIndex 0xFFF).i.toNat + (1 : Reg).val > 0xFFF ∧ (start.setIndex 0xFFF).i.toNat + (0 : Reg).val ≤ 0xFFF ∧
    (start.setIndex 0xFF0).i.toNat + (15 : Reg).val ≤ 0xFFF := by decide

theorem witness_StoreDecimalDigits : (start.setIndex 0xFFE).i.toNat + 2 > 0xFFF ∧
    (start.setIndex 0xFFD).i.toNat + 2 ≤ 0xFFF := by decide

/-- A result register that is not VF, for the two-register instructions that set a flag. -/
theorem witness_flag_instructions : (14 : Reg) ≠ vf := by decide

theorem witness_DrawInvertsTheCoveredCells :
    ((2 : Nibble) ≠ 0#4 ∧ (start.setIndex 0xFFF).i.toNat + (2 : Nibble).toNat - 1 > 0xFFF) ∧
    ((1 : Nibble) ≠ 0#4 → (start.setIndex 0xFFF).i.toNat + (1 : Nibble).toNat - 1 ≤ 0xFFF) ∧
    ((0 : Nibble) ≠ 0#4 → (start.setIndex 0xFFFF).i.toNat + (0 : Nibble).toNat - 1 ≤ 0xFFF) := by decide

/-- A state that draws one pixel at the origin. -/
def pixel : State := bytesAt (start.setIndex 0x300) 0x300 [0x80]

theorem witness_DrawingTwiceRestoresTheScreen : (0 : Reg) ≠ vf ∧ (1 : Reg) ≠ vf ∧
    (∃ t, exec (.drw 0 1 1) pixel = .next t) ∧ pixel.fb.cell 0 0 = false ∧
    (nextOf (exec (.drw 0 1 1) pixel)).map (fun t => t.fb.cell 0 0) = some true :=
  ⟨by decide, by decide, exists_next_of_isSome (by decide), by decide, by decide⟩

theorem witness_DirtyTracksChangedCells : (∃ t, exec (.drw 0 1 1) pixel = .next t) ∧ (∃ t, exec (.ldI 0x300) pixel = .next t) ∧
    (∀ x y n, Instr.ldI 0x300 ≠ .drw x y n) ∧ Instr.ldI 0x300 ≠ .cls :=
  ⟨exists_next_of_isSome (by decide), exists_next_of_isSome (by decide), by simp, by simp⟩

/-- A state that awaits a key, with the keys held now and at the previous poll. -/
def awaitingKey (now before : Keys) : State :=
  { start with awaiting := true, waitReg := 3, keypad := now, keyPrev := before }

/-- Key 0 held before and keys 1 and 15 pressed since; key 15 alone; and the held keys only. -/
theorem witness_KeyWaitPollCompletesOnAPress :
    (∀ now before, (awaitingKey now before).loaded = true ∧ (awaitingKey now before).awaiting = true) ∧
    ((awaitingKey 0x8003 0x0001).keypad.getLsbD (1 : Reg).val = true ∧
      (awaitingKey 0x8003 0x0001).keyPrev.getLsbD (1 : Reg).val = false ∧
      ∀ j < (1 : Reg), (awaitingKey 0x8003 0x0001).keypad.getLsbD j.val = true →
        (awaitingKey 0x8003 0x0001).keyPrev.getLsbD j.val = true) ∧
    ((awaitingKey 0x8000 0x0000).keypad.getLsbD (15 : Reg).val = true ∧
      (awaitingKey 0x8000 0x0000).keyPrev.getLsbD (15 : Reg).val = false ∧
      ∀ j < (15 : Reg), (awaitingKey 0x8000 0x0000).keypad.getLsbD j.val = true →
        (awaitingKey 0x8000 0x0000).keyPrev.getLsbD j.val = true) ∧
    (∀ k : Reg, (awaitingKey 0x0001 0x8003).keypad.getLsbD k.val = true →
      (awaitingKey 0x0001 0x8003).keyPrev.getLsbD k.val = true) :=
  ⟨fun _ _ => ⟨rfl, rfl⟩, by decide, by decide, by decide⟩

theorem witness_KeyWaitStateMachine :
    (start.awaiting = false ∧ ∃ t, runCycle (put start 0xF30A) = .next t) ∧
    decodeWord (wordAtPc (put start 0xF30A)) = some (.ldVxK 3) ∧
    ((∃ t, perform .tick (start.suspend 3) = .next t) ∧ Command.tick ≠ .runCycle ∧ Command.tick ≠ .setDefaults) :=
  ⟨⟨by decide, exists_next_of_isSome (by decide)⟩, by decide, ⟨_, rfl⟩, by decide, by decide⟩

theorem witness_TimersRiseOnlyByTimerWrites :
    (∃ t, perform .runCycle lastWord = .next t) ∧ (∀ b, Command.runCycle ≠ .writeDT b) ∧
    (∀ b, Command.runCycle ≠ .writeST b) ∧
    (∀ x, decodeWord (wordAtPc lastWord) ≠ some (.ldDtVx x) ∧ decodeWord (wordAtPc lastWord) ≠ some (.ldStVx x)) ∧
    Command.runCycle ≠ .tick ∧ Command.runCycle ≠ .setDefaults :=
  ⟨exists_next_of_isSome (by decide), by simp, by simp, by decide, by decide, by decide⟩

theorem witness_LoadCopiesTheProgram : (List.replicate 3585 (0 : Byte)).length > 3584 ∧
    (List.replicate 3584 (0 : Byte)).length ≤ 3584 ∧ ([] : List Byte).length ≤ 3584 := by
  rw [List.length_replicate, List.length_replicate]; decide

theorem witness_StartIsOnlyAGuard : State.reset.loaded = false ∧ start.loaded = true := by decide

theorem witness_ProgramCounterAfterEveryInstruction : ∃ t, exec (.jpV0 0xFFF) (regs [(0, 0xFF)]) = .next t := ⟨_, rfl⟩

theorem witness_RegistersWrittenByEachInstruction :
    (∃ t, exec (.addReg 1 2) start = .next t) ∧ ¬mayWriteReg (.addReg 1 2) 2 ∧
    (∃ t, exec (.loadRegs 1) start = .next t) ∧ ¬mayWriteReg (.loadRegs 1) 2 :=
  ⟨⟨_, rfl⟩, by unfold mayWriteReg; decide, exists_next_of_isSome (by decide), by simp [mayWriteReg]⟩

theorem witness_MemoryWrittenOnlyByTheStores :
    (∃ t, exec (.storeRegs 0) ((regs [(0, 7)]).setIndex 0xFFF) = .next t) ∧
    (nextOf (exec (.storeRegs 0) ((regs [(0, 7)]).setIndex 0xFFF))).map (fun t => t.mem.read 0xFFF) = some 7 ∧
    ((regs [(0, 7)]).setIndex 0xFFF).mem.read 0xFFF = 0 :=
  ⟨exists_next_of_isSome (by decide), by decide, by decide⟩

theorem witness_CycleLeavesHostStateAlone : ∃ t, runCycle (put start 0xF315) = .next t :=
  exists_next_of_isSome (by decide)

/-- Program P1, and the same jump at the last fetchable address. -/
theorem witness_SelfJumpIsTheEndOfARun :
    (CanFetch (put start 0x1200) ∧ (put start 0x1200).inbox = [] ∧
      (wordAtPc (put start 0x1200)).toNat = 0x1000 + (put start 0x1200).pc.toNat) ∧
    (CanFetch (put { start with pc := 0xFFE } 0x1FFE) ∧
      (wordAtPc (put { start with pc := 0xFFE } 0x1FFE)).toNat = 0x1000 + (0xFFE#16).toNat) :=
  ⟨⟨⟨rfl, rfl, by decide⟩, rfl, by decide⟩, ⟨rfl, rfl, by decide⟩, by decide⟩

theorem witness_InstructionsIgnoreWaitingCommands : (∃ t, exec (.jp 0x300) start = .next t) ∧
    exec .ret start = .fault (.stackUnderflow 0x200) :=
  ⟨⟨_, rfl⟩, eq_fault_of_faultOf (by decide)⟩

theorem witness_CommandsRunInArrivalOrder :
    (∃ t, Sys2Proof.core.run [Command.tick, .queryPC].length (start.setInbox [.tick, .queryPC]) = .next t) ∧
    (∀ f, Response.fault f ∉ (serveAll [.tick, .queryPC] (start.setInbox [])).1) :=
  ⟨⟨_, rfl⟩, by simp [serveAll, serve, perform, answer]⟩

end Sys2Proof.Tests
end

section
/-! Proofs about the instruction cycle of 40_cycle.md: its guard, its fetch and its faults. -/

namespace Sys2Proof.Machine

/-! ## The fetch (R61) -/

/-- A word that was fetched is the word at `PC`. -/
theorem eq_wordAtPc_of_fetchWord {s : State} {w : Word} (h : fetchWord s = some w) : w = wordAtPc s := by
  by_cases hp : s.pc.toNat + 1 ≤ 0xFFF
  · rw [fetchWord_of_le hp] at h
    exact (Option.some.inj h).symm
  · rw [fetchWord_eq_none.2 (by omega)] at h
    cases h

theorem toNat_wordAtPc (s : State) :
    (wordAtPc s).toNat = (s.mem.read s.pc.toNat).toNat * 256 + (s.mem.read (s.pc.toNat + 1)).toNat :=
  toNat_wordOfBytes _ _

/-- A cycle that gets as far as the fetch, and finds no word there, faults with `PC` (R60, R61). -/
theorem runCycle_of_fetchWord_eq_none {s : State} (hl : s.loaded = true) (ha : s.awaiting = false)
    (hf : fetchWord s = none) : runCycle s = .fault (.memoryOutOfBounds s.pc.toNat) := by
  simp [runCycle, raise, hl, ha, hf]

/-- Settles O5: the fetch bound, the word at `PC` as a number, and the cycle's fault where there is no word. -/
theorem fetchReadsTwoBytesBigEndian : Obligations.FetchReadsTwoBytesBigEndian := by
  intro s
  have hnone : fetchWord s = none ↔ s.pc.toNat ≥ 0xFFF := fetchWord_eq_none.trans (by omega)
  refine ⟨hnone, fun w hw => ?_, fun hl ha hp => ?_⟩
  · rw [eq_wordAtPc_of_fetchWord hw]
    exact toNat_wordAtPc s
  · exact runCycle_of_fetchWord_eq_none hl ha (hnone.2 hp)

end Sys2Proof.Machine
end

section
/-! Proofs about the control-flow instructions of 41_control_flow.md: the jump and the compare-and-skip group. -/

namespace Sys2Proof.Machine

/-! ## What only sets `PC` (R63) -/

/-- The frame of every instruction that only sets `PC`. -/
theorem keepsAllBut_goto (s : State) (a : Word) : KeepsAllBut [.pc] s (s.goto a) := by
  intro p hp
  cases p with
  | pc => exact absurd (List.mem_singleton_self _) hp
  | _ => simp [Part.same]

/-- An instruction whose arm is a conditional skip skips exactly when the condition it tests holds. The instruction is
a variable, so that each skip instruction of the opcode table is one use of this. -/
theorem exec_of_skipIf {i : Instr} {s : State} {c : Bool} {P : Prop} [Decidable P]
    (hexec : exec i s = .next (s.skipIf c)) (hc : c = true ↔ P) :
    ∃ t, exec i s = .next t ∧ t.pc = (if P then s.pc + 4 else s.pc + 2) ∧ KeepsAllBut [.pc] s t := by
  refine ⟨s.goto (if P then s.pc + 4 else s.pc + 2), ?_, rfl, keepsAllBut_goto s _⟩
  rw [hexec, State.skipIf_eq]
  simp only [hc]

/-! ## The obligations -/

/-- Settles O21: the jump is one `goto` to the zero-extended address. -/
theorem jumpSetsPc : Obligations.JumpSetsPc := fun nnn s =>
  ⟨s.goto (zextAddr nnn), rfl, toNat_zextAddr nnn, keepsAllBut_goto s _⟩

/-- Settles O23: the arm of each of the four is a conditional skip on a Boolean test that decides its comparison. -/
theorem compareSkips : Obligations.CompareSkips := fun _ _ _ _ =>
  ⟨exec_of_skipIf rfl beq_iff_eq, exec_of_skipIf rfl bne_iff_ne,
    exec_of_skipIf rfl beq_iff_eq, exec_of_skipIf rfl bne_iff_ne⟩

end Sys2Proof.Machine
end

section
/-! Proofs about the moves of 42_moves.md that fill one register or `I`. -/

namespace Sys2Proof.Machine

/-! ## What sets one register, or `I`, and goes on -/

/-- The frame between registers of every instruction that writes the one register `x`. -/
theorem keepsRegsBut_setReg_advance (s : State) (x : Reg) (b : Byte) :
    KeepsRegsBut [x] s (s.setReg x b).advance := by
  intro r hr
  have hne : r ≠ x := fun h => hr (List.mem_singleton.2 h)
  simp [hne]

/-- The frame of every instruction that writes one register. -/
theorem keepsAllBut_setReg_advance (s : State) (x : Reg) (b : Byte) :
    KeepsAllBut [.regs, .pc] s (s.setReg x b).advance := by
  intro p hp
  cases p with
  | regs | pc => simp at hp
  | _ => simp [Part.same]

/-- The frame of every instruction that writes `I`. -/
theorem keepsAllBut_setIndex_advance (s : State) (a : Word) :
    KeepsAllBut [.index, .pc] s (s.setIndex a).advance := by
  intro p hp
  cases p with
  | index | pc => simp at hp
  | _ => simp [Part.same]

/-- An instruction whose arm writes `b` to `V[x]` and goes on does that and nothing else. The instruction is a variable,
so that each load of a register is one use of this. -/
theorem exec_of_setReg {i : Instr} {s : State} {x : Reg} {b : Byte}
    (hexec : exec i s = .next (s.setReg x b).advance) :
    ∃ t, exec i s = .next t ∧ t.reg x = b ∧ t.pc = s.pc + 2 ∧ KeepsRegsBut [x] s t ∧
      KeepsAllBut [.regs, .pc] s t :=
  ⟨(s.setReg x b).advance, hexec, by simp, rfl, keepsRegsBut_setReg_advance s x b, keepsAllBut_setReg_advance s x b⟩

/-! ## The obligations -/

/-- Settles O24: both arms write one register, with the byte of the word or with the value `V[y]` has before. -/
theorem loadRegister : Obligations.LoadRegister := fun _ _ _ _ => ⟨exec_of_setReg rfl, exec_of_setReg rfl⟩

/-- Settles O25: `I` takes the zero-extended address. -/
theorem loadIndex : Obligations.LoadIndex := fun nnn s =>
  ⟨(s.setIndex (zextAddr nnn)).advance, rfl, toNat_zextAddr nnn, rfl, keepsAllBut_setIndex_advance s _⟩

end Sys2Proof.Machine
end

section
/-! Proofs about the instructions of 43_arith_logic.md that write a result and then a flag. -/

namespace Sys2Proof.Machine

/-! ## What writes a result and then a flag, and goes on (R87) -/

/-- A flag that is the truth of `P`, as the byte VF receives. -/
theorem flagByte_decide (P : Prop) [Decidable P] : flagByte (decide P) = if P then 1 else 0 := by
  simp [flagByte]

/-- The frame between registers of every instruction that writes `x` and then VF. -/
theorem keepsRegsBut_setResultAndFlag_advance (s : State) (x : Reg) (b : Byte) (c : Bool) :
    KeepsRegsBut [x, vf] s (s.setResultAndFlag x b c).advance := by
  intro r hr
  obtain ⟨hx, hvf⟩ : r ≠ x ∧ r ≠ vf := by simpa using hr
  simp [hx, hvf]

/-- The frame of every instruction that writes a result and a flag: the flag is one more register. -/
theorem keepsAllBut_setResultAndFlag_advance (s : State) (x : Reg) (b : Byte) (c : Bool) :
    KeepsAllBut [.regs, .pc] s (s.setResultAndFlag x b c).advance := by
  intro p hp
  have hflag := keepsAllBut_setReg_advance (s.setReg x b) vf (flagByte c) p hp
  cases p with
  | regs | pc => simp at hp
  | _ => exact hflag

/-- An instruction whose arm writes `b` to `V[x]`, then the flag `c` to VF, and goes on does that and nothing else; the
flag is what VF holds also when `x` is VF (D18). The instruction is a variable, so that each instruction with a flag is
one use of this. -/
theorem exec_of_setResultAndFlag {i : Instr} {s : State} {x : Reg} {b : Byte} {c : Bool}
    (hexec : exec i s = .next (s.setResultAndFlag x b c).advance) :
    ∃ t, exec i s = .next t ∧ (x ≠ vf → t.reg x = b) ∧ t.reg vf = flagByte c ∧ KeepsRegsBut [x, vf] s t ∧
      t.pc = s.pc + 2 ∧ KeepsAllBut [.regs, .pc] s t :=
  ⟨(s.setResultAndFlag x b c).advance, hexec, fun hx => by simp [hx], by simp,
    keepsRegsBut_setResultAndFlag_advance s x b c, rfl, keepsAllBut_setResultAndFlag_advance s x b c⟩

/-! ## The obligations -/

/-- Settles O32: the byte sum is the sum modulo 256, and the flag is the carry of the two values before. -/
theorem addRegistersSetsCarry : Obligations.AddRegistersSetsCarry := by
  intro x y s
  obtain ⟨t, hexec, hresult, hflag, hframe⟩ := exec_of_setResultAndFlag (i := .addReg x y) (s := s) rfl
  refine ⟨t, hexec, fun hx => ?_, hflag.trans (flagByte_decide _), hframe⟩
  rw [hresult hx, BitVec.toNat_add]

end Sys2Proof.Machine
end

section
/-! Proofs about the timer instructions of 46_timers.md. -/

namespace Sys2Proof.Machine

/-! ## What writes one timer and goes on -/

/-- The frame of every instruction that writes `DT`; the sound timer is one of the parts it keeps. -/
theorem keepsAllBut_setDt_advance (s : State) (b : Byte) : KeepsAllBut [.dt, .pc] s (s.setDt b).advance := by
  intro p hp
  cases p with
  | dt | pc => simp at hp
  | _ => simp [Part.same]

/-- The frame of every instruction that writes `ST`; the delay timer is one of the parts it keeps. -/
theorem keepsAllBut_setSt_advance (s : State) (b : Byte) : KeepsAllBut [.st, .pc] s (s.setSt b).advance := by
  intro p hp
  cases p with
  | st | pc => simp at hp
  | _ => simp [Part.same]

/-! ## The obligation -/

/-- Settles O44: reading `DT` is a load of one register, and each write of a timer takes the byte of `V[x]` as it is,
with no bound by the timer's value before (R109, R110). -/
theorem timerInstructions : Obligations.TimerInstructions := by
  intro x s
  obtain ⟨t, hexec, hreg, hpc, hregs, hrest⟩ := exec_of_setReg (i := .ldVxDt x) (s := s) rfl
  exact ⟨⟨t, hexec, hreg, hregs, hpc, hrest⟩,
    ⟨(s.setDt (s.reg x)).advance, rfl, rfl, rfl, keepsAllBut_setDt_advance s (s.reg x)⟩,
    ⟨(s.setSt (s.reg x)).advance, rfl, rfl, rfl, keepsAllBut_setSt_advance s (s.reg x)⟩⟩

end Sys2Proof.Machine
end

section
/-! Proofs about the faults of 60_exceptions.md: which instruction, which cycle and which command raises one. -/

namespace Sys2Proof.Machine

/-! ## The fault of an instruction (R117 to R119) -/

/-- `SYS addr` reports its own word: the address with the opcode nibble 0 (D14). -/
theorem encodeWord_sys (nnn : Addr) : encodeWord (.sys nnn) = nnn.setWidth 16 :=
  BitVec.eq_of_toNat_eq <| calc
    (formatNNN 0 nnn).toNat = nnn.toNat := by simp [toNat_formatNNN]
    _ = (zextAddr nnn).toNat := (toNat_zextAddr nnn).symm

/-- An instruction faults exactly when and as `FaultsWith` says: each arm that can fault rests on the condition of its
range check or of the stack, and every other arm completes. -/
theorem exec_fault_iff {i : Instr} {s : State} {f : Fault} : exec i s = .fault f ↔ FaultsWith i s f := by
  cases i with
  | sys nnn => simp [exec, execSys, raise, FaultsWith, encodeWord_sys, eq_comm]
  | ret =>
    simp only [exec, execRet, FaultsWith, ← State.pop_eq_none]
    cases s.pop <;> simp [raise, eq_comm]
  | call nnn =>
    simp only [exec, execCall, FaultsWith, ← State.push_eq_none (a := s.pc + 2)]
    cases s.push (s.pc + 2) <;> simp [raise, eq_comm]
  | storeRegs x => exact withinMemory_fault
  | loadRegs x => exact withinMemory_fault
  | ldB x => exact withinMemory_fault
  | drw x y n =>
    simp only [exec, execDrw, FaultsWith]
    by_cases hn : n = 0#4
    · simp [hn]
    · have hpos : n.toNat > 0 := Nat.pos_of_ne_zero fun h0 => hn (BitVec.eq_of_toNat_eq h0)
      rw [if_neg hn, withinMemory_fault]
      exact (and_iff_right hpos).symm
  | _ => exact iff_of_false (nomatch ·) id

/-- The instructions that raise MemoryOutOfBounds, and the address each reports (R117); `o` is what the decoder gives. -/
theorem exists_faultsWith_memoryOutOfBounds (o : Option Instr) (s : State) (a : Nat) :
    (∃ i, o = some i ∧ FaultsWith i s (.memoryOutOfBounds a)) ↔ ∃ x y : Reg, ∃ n : Nibble,
      (o = some (.storeRegs x) ∧ s.i.toNat + x.val > 0xFFF ∧ a = s.i.toNat + x.val) ∨
      (o = some (.loadRegs x) ∧ s.i.toNat + x.val > 0xFFF ∧ a = s.i.toNat + x.val) ∨
      (o = some (.ldB x) ∧ s.i.toNat + 2 > 0xFFF ∧ a = s.i.toNat + 2) ∨
      (o = some (.drw x y n) ∧ n.toNat > 0 ∧ s.i.toNat + n.toNat - 1 > 0xFFF ∧ a = s.i.toNat + n.toNat - 1) := by
  cases o with
  | none => simp
  | some i => cases i <;> simp [FaultsWith]

/-! ## The fault of a cycle (R60, R120) -/

/-- A cycle that gets as far as the decode, and finds an illegal word, faults with it (R60). -/
theorem runCycle_of_decode_eq_none {s : State} (h : CanFetch s) (hd : decodeWord (wordAtPc s) = none) :
    runCycle s = .fault (.decodeFault (wordAtPc s)) := by
  obtain ⟨hl, ha, hp⟩ := h
  simp [runCycle, raise, hl, ha, fetchWord_of_le hp, hd]

/-- A cycle past the guard and the key wait raises MemoryOutOfBounds at the fetch, with `PC`, or in the instruction it
decodes; the guard, the poll and an illegal word never do. -/
theorem runCycle_memoryOutOfBounds {s : State} {a : Nat} :
    runCycle s = .fault (.memoryOutOfBounds a) ↔ s.loaded = true ∧ s.awaiting = false ∧
      ((s.pc.toNat + 1 > 0xFFF ∧ a = s.pc.toNat) ∨ (s.pc.toNat + 1 ≤ 0xFFF ∧
        ∃ i, decodeWord (wordAtPc s) = some i ∧ FaultsWith i s (.memoryOutOfBounds a))) := by
  cases hl : s.loaded with
  | false => simp [runCycle, raise, hl]
  | true =>
    cases ha : s.awaiting with
    | true => simp [runCycle, hl, ha]
    | false =>
      by_cases hp : s.pc.toNat + 1 ≤ 0xFFF
      · have hfetch : CanFetch s := ⟨hl, ha, hp⟩
        cases hd : decodeWord (wordAtPc s) with
        | none => simp [runCycle_of_decode_eq_none hfetch hd, hp, hp.not_gt]
        | some i => simp [runCycle_of_decode hfetch hd, exec_fault_iff, hp, hp.not_gt]
      · have hout : s.pc.toNat + 1 > 0xFFF := by omega
        simp [runCycle_of_fetchWord_eq_none hl ha (fetchWord_eq_none.2 hout), hp, hout, eq_comm]

/-! ## The fault of a command (R116, R117) -/

/-- `Load` raises none but its own two faults (R142). -/
theorem load_fault {buf : Option (List Byte)} {s : State} {f : Fault} (h : load buf s = .fault f) :
    f = .invalidArgument ∨ ∃ len, f = .programTooLarge len := by
  cases buf with
  | none => exact .inl (Host.Outcome.fault.inj h).symm
  | some bytes =>
    simp only [load, raise] at h
    split at h
    · exact .inr ⟨_, (Host.Outcome.fault.inj h).symm⟩
    · cases h

/-- `Start` raises none but its guard's fault (R143). -/
theorem start_fault {s : State} {f : Fault} (h : start s = .fault f) : f = .programNotLoaded := by
  unfold start raise at h
  split at h
  · exact (Host.Outcome.fault.inj h).symm
  · cases h

/-- No command but RunCycle raises MemoryOutOfBounds. -/
theorem eq_runCycle_of_memoryOutOfBounds {c : Command} {s : State} {a : Nat}
    (h : perform c s = .fault (.memoryOutOfBounds a)) : c = .runCycle := by
  cases c with
  | runCycle => rfl
  | load buf => obtain hf | ⟨_, hf⟩ := load_fault h <;> cases hf
  | start => cases start_fault h
  | _ => cases h

/-! ## The obligations -/

/-- Settles O9: only a RunCycle raises it, at the fetch or in the decoded instruction, whose own condition and address
`FaultsWith` names. -/
theorem memoryOutOfBoundsInExactlyThesePlaces : Obligations.MemoryOutOfBoundsInExactlyThesePlaces := by
  intro c s a
  rw [← exists_faultsWith_memoryOutOfBounds, ← runCycle_memoryOutOfBounds]
  constructor
  · intro h
    obtain rfl := eq_runCycle_of_memoryOutOfBounds h
    exact ⟨rfl, h⟩
  · rintro ⟨rfl, h⟩
    exact h

end Sys2Proof.Machine
end

section
/-! Proofs about the host commands of 60_exceptions.md that cannot fail. -/

namespace Sys2Proof.Machine

/-- A command whose transition completes responds with its answer and leaves the state it made. -/
theorem serve_of_next {c : Command} {s t : State} (h : perform c s = .next t) : serve c s = (answer c s, t) := by
  simp [serve, h]

/-- The frame of `ClearDirty`. -/
theorem keepsAllBut_clearDirty (s : State) : KeepsAllBut [.dirty] s (clearDirty s) := by
  intro p hp
  cases p with
  | dirty => exact absurd (List.mem_singleton_self _) hp
  | _ => simp [Part.same, clearDirty, State.reg]

/-- Settles O51: the transition only overwrites the flag, and the answer is `ok`. -/
theorem clearDirtyClearsTheFlag : Obligations.ClearDirtyClearsTheFlag := fun s =>
  ⟨clearDirty s, serve_of_next rfl, rfl, keepsAllBut_clearDirty s⟩

/-- Settles O52: the transition of each of the three is the identity, and the answer reads the state before it. -/
theorem hostReadsChangeNothing : Obligations.HostReadsChangeNothing := fun _ =>
  ⟨serve_of_next rfl, serve_of_next rfl, serve_of_next rfl⟩

end Sys2Proof.Machine
end

section
/-! Proofs about the encoding of 30_encoding.md: decode and encode agree, and the illegal words of its section 3. -/

namespace Sys2Proof

/-! ## Decode after encode (R46 to R51) -/

/-- In family 0 a well-formed `SYS` is none of the two exact words (R50). -/
theorem decodeFamily0_of_wellFormed {nnn : Addr} (h : (Instr.sys nnn).wellFormed = true) :
    decodeFamily0 nnn = .sys nnn := by
  obtain ⟨hcls, hret⟩ : nnn ≠ 0x0E0#12 ∧ nnn ≠ 0x0EE#12 := by simpa [Instr.wellFormed] using h
  simp [decodeFamily0, hcls, hret]

/-- The word of a well-formed instruction decodes to it. Every row but `SYS` reads its fields back from the format. -/
theorem decodeWord_encodeWord {i : Instr} (h : i.wellFormed = true) : decodeWord (encodeWord i) = some i := by
  cases i with
  | sys nnn => simp [encodeWord, decodeWord, decodeFamily0_of_wellFormed h]
  | cls | ret => decide
  | _ => simp [encodeWord, decodeWord, decodeFamily8, decodeFamilyE, decodeFamilyF]

/-- Settles O1: decoding bytes is decoding their word, and the word of a well-formed instruction decodes to it. -/
theorem decodeInvertsEncode : Obligations.DecodeInvertsEncode := by
  intro i rest h
  rw [encode, decode_bytesOfWord, decodeWord_encodeWord h]

/-! ## Encode after decode (R50) -/

/-- Every instruction's word selects its row of R51. -/
theorem encodeWord_and_mask (i : Instr) : encodeWord i &&& i.row.mask = i.row.pattern := by
  cases i with
  | sys nnn => exact Laws.OpcodeRow.sys nnn
  | cls => exact Laws.OpcodeRow.cls
  | ret => exact Laws.OpcodeRow.ret
  | jp nnn => exact Laws.OpcodeRow.jp nnn
  | call nnn => exact Laws.OpcodeRow.call nnn
  | seByte x nn => exact Laws.OpcodeRow.seByte x nn
  | sneByte x nn => exact Laws.OpcodeRow.sneByte x nn
  | seReg x y => exact Laws.OpcodeRow.seReg x y
  | ldByte x nn => exact Laws.OpcodeRow.ldByte x nn
  | addByte x nn => exact Laws.OpcodeRow.addByte x nn
  | ldReg x y => exact Laws.OpcodeRow.ldReg x y
  | orReg x y => exact Laws.OpcodeRow.orReg x y
  | andReg x y => exact Laws.OpcodeRow.andReg x y
  | xorReg x y => exact Laws.OpcodeRow.xorReg x y
  | addReg x y => exact Laws.OpcodeRow.addReg x y
  | subReg x y => exact Laws.OpcodeRow.subReg x y
  | shr x y => exact Laws.OpcodeRow.shr x y
  | subnReg x y => exact Laws.OpcodeRow.subnReg x y
  | shl x y => exact Laws.OpcodeRow.shl x y
  | sneReg x y => exact Laws.OpcodeRow.sneReg x y
  | ldI nnn => exact Laws.OpcodeRow.ldI nnn
  | jpV0 nnn => exact Laws.OpcodeRow.jpV0 nnn
  | rnd x nn => exact Laws.OpcodeRow.rnd x nn
  | drw x y n => exact Laws.OpcodeRow.drw x y n
  | skp x => exact Laws.OpcodeRow.skp x
  | sknp x => exact Laws.OpcodeRow.sknp x
  | ldVxDt x => exact Laws.OpcodeRow.ldVxDt x
  | ldVxK x => exact Laws.OpcodeRow.ldVxK x
  | ldDtVx x => exact Laws.OpcodeRow.ldDtVx x
  | ldStVx x => exact Laws.OpcodeRow.ldStVx x
  | addI x => exact Laws.OpcodeRow.addI x
  | ldF x => exact Laws.OpcodeRow.ldF x
  | ldB x => exact Laws.OpcodeRow.ldB x
  | storeRegs x => exact Laws.OpcodeRow.storeRegs x
  | loadRegs x => exact Laws.OpcodeRow.loadRegs x

/-- `i` is an instruction of the hardware and `w` is its word. -/
def Instr.IsMeaningOf (i : Instr) (w : Word) : Prop := i.wellFormed = true ∧ encodeWord i = w

theorem decodeFamily0_isMeaningOf (nnn : Addr) : (decodeFamily0 nnn).IsMeaningOf (formatNNN 0x0#4 nnn) := by
  unfold decodeFamily0
  split
  · next h => exact ⟨rfl, by rw [h]; rfl⟩
  · split
    · next h => exact ⟨rfl, by rw [h]; rfl⟩
    · next hcls hret => exact ⟨by simp [Instr.wellFormed, hcls, hret], rfl⟩

theorem isMeaningOf_of_decodeFamily8 {x y : Reg} {n : Nibble} {i : Instr} (h : decodeFamily8 x y n = some i) :
    i.IsMeaningOf (formatXYN 0x8#4 x y n) := by
  unfold decodeFamily8 at h
  split at h <;> cases h <;> exact ⟨rfl, rfl⟩

theorem isMeaningOf_of_decodeFamilyE {x : Reg} {nn : Byte} {i : Instr} (h : decodeFamilyE x nn = some i) :
    i.IsMeaningOf (formatXNN 0xE#4 x nn) := by
  unfold decodeFamilyE at h
  split at h <;> cases h <;> exact ⟨rfl, rfl⟩

theorem isMeaningOf_of_decodeFamilyF {x : Reg} {nn : Byte} {i : Instr} (h : decodeFamilyF x nn = some i) :
    i.IsMeaningOf (formatXNN 0xF#4 x nn) := by
  unfold decodeFamilyF at h
  split at h <;> cases h <;> exact ⟨rfl, rfl⟩

/-! The three formats, where the family of a word is known. -/

theorem formatNNN_of_opField {w : Word} {op : Nibble} (h : opField w = op) : formatNNN op (nnnField w) = w :=
  h ▸ formatNNN_fields w

theorem formatXNN_of_opField {w : Word} {op : Nibble} (h : opField w = op) :
    formatXNN op (xField w) (nnField w) = w :=
  h ▸ formatXNN_fields w

theorem formatXYN_of_opField {w : Word} {op : Nibble} (h : opField w = op) :
    formatXYN op (xField w) (yField w) (nField w) = w :=
  h ▸ formatXYN_fields w

/-- A decoded word is the word of the instruction it decodes to, family by family. -/
theorem isMeaningOf_of_decodeWord {w : Word} {i : Instr} (h : decodeWord w = some i) : i.IsMeaningOf w := by
  unfold decodeWord at h
  split at h
  case h_1 hop =>
    cases h
    have hi := decodeFamily0_isMeaningOf (nnnField w)
    rwa [formatNNN_of_opField hop] at hi
  case h_2 hop | h_3 hop | h_11 hop | h_12 hop => cases h; exact ⟨rfl, formatNNN_of_opField hop⟩
  case h_4 hop | h_5 hop | h_7 hop | h_8 hop | h_13 hop => cases h; exact ⟨rfl, formatXNN_of_opField hop⟩
  case h_6 hop | h_10 hop =>
    split at h
    · next hn =>
      cases h
      have hw := formatXYN_of_opField hop
      rw [hn] at hw
      exact ⟨rfl, hw⟩
    · cases h
  case h_9 hop => exact formatXYN_of_opField hop ▸ isMeaningOf_of_decodeFamily8 h
  case h_14 hop => cases h; exact ⟨rfl, formatXYN_of_opField hop⟩
  case h_15 hop => exact formatXNN_of_opField hop ▸ isMeaningOf_of_decodeFamilyE h
  case h_16 =>
    have hop : opField w = 0xF#4 := nibble_eq_fifteen fun k => by fin_cases k <;> assumption
    exact formatXNN_of_opField hop ▸ isMeaningOf_of_decodeFamilyF h

/-- Settles O2: a decoded word is the word of its instruction, and every instruction's word selects its own row. -/
theorem decodedWordIsItsEncoding : Obligations.DecodedWordIsItsEncoding := by
  intro w i h
  obtain ⟨hwf, hword⟩ := isMeaningOf_of_decodeWord h
  exact ⟨hwf, hword, hword ▸ encodeWord_and_mask i⟩

/-! ## The illegal words (R52) -/

theorem decodeFamily8_eq_none {x y : Reg} {n : Nibble} :
    decodeFamily8 x y n = none ↔ n.toNat ∈ [0x8, 0x9, 0xA, 0xB, 0xC, 0xD, 0xF] := by
  unfold decodeFamily8
  split
  case h_10 =>
    refine iff_of_true rfl ?_
    clear x y
    revert n
    decide
  all_goals exact iff_of_false (nomatch ·) (by decide)

theorem decodeFamilyE_eq_none {x : Reg} {nn : Byte} :
    decodeFamilyE x nn = none ↔ nn.toNat ∉ [0x9E, 0xA1] := by
  unfold decodeFamilyE
  split
  case h_3 => simp_all [← BitVec.toNat_inj]
  all_goals simp

theorem decodeFamilyF_eq_none {x : Reg} {nn : Byte} :
    decodeFamilyF x nn = none ↔ nn.toNat ∉ [0x07, 0x0A, 0x15, 0x18, 0x1E, 0x29, 0x33, 0x55, 0x65] := by
  unfold decodeFamilyF
  split
  case h_10 => simp_all [← BitVec.toNat_inj]
  all_goals simp

theorem nField_eq_zero {w : Word} : nField w = 0#4 ↔ w.toNat % 16 = 0 := by
  simp [← BitVec.toNat_inj, toNat_nField]

/-- Settles O3, family by family: what a family leaves undecoded are its rows of the table, and a row of another
family does not hold. -/
theorem illegalWordsAreTheListedOnes : Obligations.IllegalWordsAreTheListedOnes := by
  intro w
  have hfam := toNat_opField w
  unfold decodeWord
  split
  case h_6 hop | h_10 hop =>
    rw [hop] at hfam
    simp [← hfam, nField_eq_zero]
  case h_9 hop =>
    rw [hop] at hfam
    rw [decodeFamily8_eq_none, toNat_nField]
    simp [← hfam]
  case h_15 hop =>
    rw [hop] at hfam
    rw [decodeFamilyE_eq_none, toNat_nnField]
    simp [← hfam]
  case h_16 =>
    have hop : opField w = 0xF#4 := nibble_eq_fifteen fun k => by fin_cases k <;> assumption
    rw [hop] at hfam
    rw [decodeFamilyF_eq_none, toNat_nnField]
    simp [← hfam]
  all_goals
    next hop =>
    rw [hop] at hfam
    simp [← hfam]

/-- Settles O4: a sanity statement, computed at each of the 16 register numbers. -/
theorem tableWordsDecode : Obligations.TableWordsDecode := by
  unfold Obligations.TableWordsDecode
  decide

end Sys2Proof
end

section
/-! The rules of every instruction that completes: the parts it writes, its `PC` (R63), its registers (R27), and what
the memory can be after it (R37). -/

namespace Sys2Proof.Machine

/-! ## The frame of each shape of update -/

theorem keepsAllBut_setCells_advance (s : State) (fb : Framebuffer) (c : Bool) :
    KeepsAllBut [.cells, .dirty, .pc] s (s.setCells fb c).advance := by
  intro p hp
  cases p with
  | cells | dirty | pc => simp at hp
  | _ => simp [Part.same]

theorem keepsAllBut_setStack_goto (s : State) (e : Vector Word 16) (n : Fin 17) (a : Word) :
    KeepsAllBut [.stack, .pc] s ((s.setStack e n).goto a) := by
  intro p hp
  cases p with
  | stack | pc => simp at hp
  | _ => simp [Part.same]

theorem keepsAllBut_storeBytes_advance (s : State) (a : Nat) (bs : List Byte) :
    KeepsAllBut [.memory, .pc] s (s.storeBytes a bs).advance := by
  intro p hp
  cases p with
  | memory | pc => simp at hp
  | _ => simp [Part.same]

theorem keepsAllBut_setFirstRegs_advance (s : State) (bs : List Byte) :
    KeepsAllBut [.regs, .pc] s (s.setFirstRegs bs).advance := by
  intro p hp
  cases p with
  | regs | pc => simp at hp
  | _ => simp [Part.same]

theorem keepsAllBut_setReg_nextRnd_advance (s : State) (x : Reg) (b : Byte) :
    KeepsAllBut [.regs, .pc, .draws] s (s.setReg x b).nextRnd.advance := by
  intro p hp
  cases p with
  | regs | pc | draws => simp at hp
  | _ => simp [Part.same]

theorem keepsAllBut_suspend (s : State) (x : Reg) : KeepsAllBut [.keyWait] s (s.suspend x) := by
  intro p hp
  cases p with
  | keyWait => simp at hp
  | _ => simp [Part.same]

theorem keepsAllBut_finishDrawing (s : State) (d : Drawing) :
    KeepsAllBut [.regs, .cells, .dirty, .pc] s (s.finishDrawing d) := by
  intro p hp
  cases p with
  | regs | cells | dirty | pc => simp at hp
  | _ => simp [Part.same, State.finishDrawing]

theorem keepsAllBut_skipIf (s : State) (c : Bool) : KeepsAllBut [.pc] s (s.skipIf c) := by
  rw [State.skipIf_eq]
  exact keepsAllBut_goto s _

/-! ## The frame of every instruction -/

/-- The parts of the state an instruction can write; `SYS` never completes. -/
def writtenParts : Instr → List Part
  | .sys _ => []
  | .jp _ | .jpV0 _ => [.pc]
  | .seByte _ _ | .sneByte _ _ | .seReg _ _ | .sneReg _ _ | .skp _ | .sknp _ => [.pc]
  | .cls => [.cells, .dirty, .pc]
  | .ret | .call _ => [.stack, .pc]
  | .ldByte _ _ | .addByte _ _ | .ldReg _ _ | .orReg _ _ | .andReg _ _ | .xorReg _ _ => [.regs, .pc]
  | .addReg _ _ | .subReg _ _ | .shr _ _ | .subnReg _ _ | .shl _ _ | .ldVxDt _ | .loadRegs _ => [.regs, .pc]
  | .rnd _ _ => [.regs, .pc, .draws]
  | .ldI _ | .addI _ | .ldF _ => [.index, .pc]
  | .drw _ _ _ => [.regs, .cells, .dirty, .pc]
  | .ldVxK _ => [.keyWait]
  | .ldDtVx _ => [.dt, .pc]
  | .ldStVx _ => [.st, .pc]
  | .ldB _ | .storeRegs _ => [.memory, .pc]

/-- An instruction that completes keeps every part it does not write, by the shape of its arm. -/
theorem exec_keepsAllBut_writtenParts {i : Instr} {s t : State} (h : exec i s = .next t) :
    KeepsAllBut (writtenParts i) s t := by
  cases i with
  | sys => cases h
  | cls => cases h; exact keepsAllBut_setCells_advance s _ _
  | ret => obtain ⟨j, -, rfl⟩ := ret_next h; exact keepsAllBut_setStack_goto s _ _ _
  | call => obtain ⟨-, rfl⟩ := call_next h; exact keepsAllBut_setStack_goto s _ _ _
  | jp | jpV0 => cases h; exact keepsAllBut_goto s _
  | seByte | sneByte | seReg | sneReg | skp | sknp => cases h; exact keepsAllBut_skipIf s _
  | ldByte | addByte | ldReg | orReg | andReg | xorReg | ldVxDt => cases h; exact keepsAllBut_setReg_advance s _ _
  | addReg | subReg | shr | subnReg | shl => cases h; exact keepsAllBut_setResultAndFlag_advance s _ _ _
  | ldI | addI | ldF => cases h; exact keepsAllBut_setIndex_advance s _
  | rnd => cases h; exact keepsAllBut_setReg_nextRnd_advance s _ _
  | drw => obtain ⟨-, rfl⟩ := drw_next h; exact keepsAllBut_finishDrawing s _
  | ldVxK => cases h; exact keepsAllBut_suspend s _
  | ldDtVx => cases h; exact keepsAllBut_setDt_advance s _
  | ldStVx => cases h; exact keepsAllBut_setSt_advance s _
  | ldB | storeRegs => obtain ⟨-, rfl⟩ := withinMemory_next.1 h; exact keepsAllBut_storeBytes_advance s _ _
  | loadRegs => obtain ⟨-, rfl⟩ := withinMemory_next.1 h; exact keepsAllBut_setFirstRegs_advance s _

/-- No instruction writes the keypad or the two fields of the loaded program (R65). -/
theorem hostPart_notMem_writtenParts (i : Instr) :
    Part.keypad ∉ writtenParts i ∧ Part.loaded ∉ writtenParts i ∧ Part.progLen ∉ writtenParts i := by
  cases i <;> simp [writtenParts]

/-! ## The program counter -/

theorem toNat_pc_advance (s : State) : s.advance.pc.toNat = (s.pc.toNat + 2) % 65536 := BitVec.toNat_add ..

theorem toNat_pc_skipIf (s : State) {c : Bool} {P : Prop} [Decidable P] (hc : c = true ↔ P) :
    (s.skipIf c).pc.toNat = (s.pc.toNat + if P then 4 else 2) % 65536 := by
  by_cases hP : P
  · rw [hc.2 hP, if_pos hP]
    exact BitVec.toNat_add ..
  · rw [Bool.eq_false_iff.2 (mt hc.1 hP), if_neg hP]
    exact toNat_pc_advance s

/-- The key an instruction tests is the one of the low nibble of `V[x]`. -/
theorem State.keyHeld_eq (s : State) (x : Reg) : s.keyHeld x = s.keypad.getLsbD ((s.reg x).toNat % 16) := by
  rw [State.keyHeld, val_lowNibble]

/-- Settles O54: an instruction jumps, skips on a test, pops, suspends, or advances. -/
theorem programCounterAfterEveryInstruction : Obligations.ProgramCounterAfterEveryInstruction := by
  intro i s t h
  cases i with
  | sys => cases h
  | jp nnn => cases h; exact toNat_zextAddr nnn
  | jpV0 nnn => cases h; simp [pcAfter]
  | call nnn => obtain ⟨-, rfl⟩ := call_next h; exact toNat_zextAddr nnn
  | ret => obtain ⟨j, hsp, rfl⟩ := ret_next h; simp [pcAfter, hsp]
  | seByte | seReg => cases h; exact toNat_pc_skipIf s beq_iff_eq
  | sneByte | sneReg => cases h; exact toNat_pc_skipIf s bne_iff_ne
  | skp x => cases h; exact toNat_pc_skipIf s (by rw [State.keyHeld_eq])
  | sknp x => cases h; exact toNat_pc_skipIf s (by rw [State.keyHeld_eq, Bool.not_eq_true'])
  | ldVxK => cases h; rfl
  | drw => obtain ⟨-, rfl⟩ := drw_next h; exact toNat_pc_advance _
  | ldB | storeRegs | loadRegs => obtain ⟨-, rfl⟩ := withinMemory_next.1 h; exact toNat_pc_advance _
  | _ => cases h; exact toNat_pc_advance _

/-! ## The registers -/

/-- The first `n` registers take the bytes read, the others keep their values (R84). -/
theorem reg_setFirstRegs_readBytes (s : State) (m : Memory) (a n : Nat) (r : Reg) :
    (s.setFirstRegs (m.readBytes a n)).reg r = if r.val < n then m.read (a + r.val) else s.reg r := by
  rw [State.reg_setFirstRegs, Memory.getD_readBytes]

/-- Settles O55: an instruction that writes no register keeps them all by its frame; the others write their
destination, then VF where they set a flag. -/
theorem registersWrittenByEachInstruction : Obligations.RegistersWrittenByEachInstruction := by
  intro i s t r h hr
  have hkeep := exec_keepsAllBut_writtenParts h .regs
  cases i with
  | ldByte | addByte | ldReg | orReg | andReg | xorReg | ldVxDt =>
    cases h
    exact keepsRegsBut_setReg_advance s _ _ r (mt List.mem_singleton.1 hr)
  | addReg | subReg | shr | subnReg | shl =>
    cases h
    exact keepsRegsBut_setResultAndFlag_advance s _ _ _ r (by simpa [mayWriteReg] using hr)
  | rnd =>
    cases h
    exact keepsRegsBut_setReg_advance s _ _ r (mt List.mem_singleton.1 hr)
  | drw =>
    obtain ⟨-, rfl⟩ := drw_next h
    exact keepsRegsBut_setReg_advance (s.setCells _ _) vf _ r (mt List.mem_singleton.1 hr)
  | loadRegs x =>
    obtain ⟨-, rfl⟩ := withinMemory_next.1 h
    have hx : x.val < r.val := not_le.1 hr
    exact (reg_setFirstRegs_readBytes ..).trans (if_neg (by omega))
  | _ => exact hkeep (by simp [writtenParts]) r

/-! ## The memory -/

/-- An instruction that completes leaves memory as it was or has written bytes at `I`, inside the Memory Image. -/
theorem exec_mem {i : Instr} {s t : State} (h : exec i s = .next t) :
    t.mem = s.mem ∨ ∃ bs : List Byte, t.mem = s.mem.writeBytes s.i.toNat bs ∧
      s.i.toNat + bs.length ≤ 0x1000 ∧
      ((∃ x, i = .storeRegs x ∧ bs.length = x.val + 1) ∨ (∃ x, i = .ldB x ∧ bs.length = 3)) := by
  cases i with
  | storeRegs x =>
    obtain ⟨hle, rfl⟩ := withinMemory_next.1 h
    have hlen := State.length_firstRegs s x
    exact .inr ⟨s.firstRegs x, rfl, by omega, .inl ⟨x, rfl, hlen⟩⟩
  | ldB x =>
    obtain ⟨hle, rfl⟩ := withinMemory_next.1 h
    have hlen := length_decimalDigits (s.reg x)
    exact .inr ⟨decimalDigits (s.reg x), rfl, by omega, .inr ⟨x, rfl, hlen⟩⟩
  | sys => cases h
  | ret => obtain ⟨j, -, rfl⟩ := ret_next h; exact .inl rfl
  | call => obtain ⟨-, rfl⟩ := call_next h; exact .inl rfl
  | drw => obtain ⟨-, rfl⟩ := drw_next h; exact .inl rfl
  | loadRegs => obtain ⟨-, rfl⟩ := withinMemory_next.1 h; exact .inl rfl
  | seByte | sneByte | seReg | sneReg | skp | sknp => cases h; rw [State.skipIf_eq]; exact .inl rfl
  | _ => cases h; exact .inl rfl

/-- Settles O56: a byte that differs is one of the bytes written at `I`. -/
theorem memoryWrittenOnlyByTheStores : Obligations.MemoryWrittenOnlyByTheStores := by
  intro i s t a h hne
  obtain hmem | ⟨bs, hmem, hle, hi⟩ := exec_mem h
  · exact absurd (by rw [hmem]) hne
  · rw [hmem, Memory.read_writeBytes] at hne
    obtain ⟨hlo, hhi⟩ : s.i.toNat ≤ a ∧ a < s.i.toNat + bs.length := by
      by_contra hout
      exact hne (if_neg hout)
    refine ⟨by omega, hlo, hi.imp ?_ ?_⟩
    · rintro ⟨x, rfl, hlen⟩
      exact ⟨x, rfl, by omega⟩
    · rintro ⟨x, rfl, hlen⟩
      exact ⟨x, rfl, by omega⟩

end Sys2Proof.Machine
end

section
/-! Proofs about the invariant of R26 and the reset state of R24. -/

namespace Sys2Proof.Machine

/-! ## Reset (R24) -/

theorem resetByte_font (k : Nat) : Memory.resetByte (0x50 + k) = fontData.getD k 0 := by
  rw [Memory.resetByte, if_neg (by simp), Nat.add_sub_cancel_left]
  rfl

theorem resetByte_outside_font {a : Nat} (h : a < 0x50 ∨ 0xA0 ≤ a) : Memory.resetByte a = 0 := by
  obtain hlo | hhi := h
  · exact if_pos hlo
  · have hlen : fontData.length ≤ a - 0x50 := by
      have : fontData.length = 80 := rfl
      omega
    rw [Memory.resetByte, if_neg (by simp; omega)]
    exact List.getD_eq_default _ _ hlen

/-- Settles O13: every field as the record states it, and memory, which lists nothing, by its reset bytes. -/
theorem resetValues : Obligations.ResetValues := by
  refine ⟨?_, rfl, rfl, rfl, ?_, rfl, rfl, rfl, Framebuffer.cell_blank, rfl, rfl, rfl, rfl, rfl, rfl, ?_, ?_⟩
  · intro r
    simp [State.reset, State.reg]
  · intro j
    simp [State.reset]
  · exact fun k _ => resetByte_font k
  · exact fun a ha => resetByte_outside_font ha

/-- The invariant speaks of memory, `PC`, the execution state, the loaded program and the stack only. -/
theorem StateInv.of_eq {s t : State} (h : StateInv s) (hmem : t.mem = s.mem) (hpc : t.pc = s.pc)
    (hawait : t.awaiting = s.awaiting) (hloaded : t.loaded = s.loaded) (hlen : t.progLen = s.progLen)
    (hsp : t.sp = s.sp) (hstack : t.stack = s.stack) : StateInv t where
  memory := by rw [hmem]; exact h.memory
  pc := by rw [hpc]; exact h.pc
  waitingPc := by rw [hpc, hawait]; exact h.waitingPc
  waitingLoaded := by rw [hawait, hloaded]; exact h.waitingLoaded
  returns := by rw [hsp, hstack]; exact h.returns
  progLen := by rw [hlen]; exact h.progLen
  unloaded := by rw [hloaded, hlen]; exact h.unloaded

/-- Settles O14: nothing is loaded, awaited or pushed, memory lists nothing and `PC` is 0x200. -/
theorem resetMeetsTheInvariant : Obligations.ResetMeetsTheInvariant where
  memory := rfl
  pc := by decide
  waitingPc := nofun
  waitingLoaded := nofun
  returns := fun _ hj => absurd hj (Nat.not_lt_zero _)
  progLen := Nat.zero_le _
  unloaded := fun _ => rfl

/-! ## Instructions -/

/-- From a `PC` that was fetched from no instruction leads above 0x10FE (R13, R63): `JP V0` reaches furthest. -/
theorem pcAfter_le {i : Instr} {s t : State} (hinv : StateInv s) (hp : s.pc.toNat ≤ 0xFFE)
    (h : exec i s = .next t) : pcAfter i s ≤ 0x10FE := by
  cases i with
  | jp nnn | call nnn => simp only [pcAfter]; omega
  | jpV0 nnn => simp only [pcAfter]; omega
  | ret =>
    obtain ⟨j, hsp, -⟩ := ret_next h
    have hj := hinv.returns j (by omega)
    simp [pcAfter, hsp] at hj ⊢
    omega
  | seByte | sneByte | seReg | sneReg | skp | sknp => simp only [pcAfter]; split <;> omega
  | _ => simp only [pcAfter]; omega

theorem exec_wf_mem {i : Instr} {s t : State} (hwf : s.mem.wf = true) (h : exec i s = .next t) :
    t.mem.wf = true := by
  obtain hmem | ⟨bs, hmem, hle, -⟩ := exec_mem h
  · rw [hmem]; exact hwf
  · rw [hmem]; exact Memory.wf_writeBytes bs hwf hle

/-- Only `CALL` and `RET` change the stack: the address pushed is at most 0x1000, and a pop forgets one. -/
theorem exec_returns {i : Instr} {s t : State} (hinv : StateInv s) (hp : s.pc.toNat ≤ 0xFFE)
    (h : exec i s = .next t) (j : Fin 16) (hj : j.val < t.sp.val) : t.stack[j].toNat ≤ 0x1000 := by
  have hkeep := exec_keepsAllBut_writtenParts h .stack
  cases i with
  | ret =>
    obtain ⟨k, hsp, rfl⟩ := ret_next h
    exact hinv.returns j (Nat.lt_trans hj (by simp [hsp]))
  | call nnn =>
    obtain ⟨hlt, rfl⟩ := call_next h
    by_cases hjs : s.sp.val = j.val
    · have hpush : (s.pc + 2).toNat ≤ 0x1000 := by rw [BitVec.toNat_add]; simp; omega
      simpa [Vector.getElem_set, hjs] using hpush
    · have hold := hinv.returns j (by simp at hj; omega)
      simpa [Vector.getElem_set, hjs] using hold
  | _ =>
    obtain ⟨hsp, hstack⟩ := hkeep (by simp [writtenParts])
    rw [hsp] at hj
    rw [hstack]
    exact hinv.returns j hj

/-- An instruction of a running core starts a key wait where it stands, or none. -/
theorem exec_awaiting {i : Instr} {s t : State} (ha : s.awaiting = false) (h : exec i s = .next t) :
    t.awaiting = true ↔ ∃ x, i = .ldVxK x := by
  have hkeep := exec_keepsAllBut_writtenParts h .keyWait
  cases i with
  | ldVxK x => cases h; simp
  | _ =>
    obtain ⟨hawait, -⟩ := hkeep (by simp [writtenParts])
    simp [hawait, ha]

/-- An instruction that a cycle can reach keeps the invariant. -/
theorem stateInv_of_exec {i : Instr} {s t : State} (hinv : StateInv s) (hfetch : CanFetch s)
    (h : exec i s = .next t) : StateInv t := by
  obtain ⟨hl, ha, hp⟩ := hfetch
  obtain ⟨-, hloaded, hlen⟩ := hostPart_notMem_writtenParts i
  have hloaded : t.loaded = s.loaded := exec_keepsAllBut_writtenParts h .loaded hloaded
  have hlen : t.progLen = s.progLen := exec_keepsAllBut_writtenParts h .progLen hlen
  have hpc : t.pc.toNat = pcAfter i s := programCounterAfterEveryInstruction i s t h
  exact {
    memory := exec_wf_mem hinv.memory h
    pc := hpc ▸ pcAfter_le hinv (by omega) h
    waitingPc := fun hawait => by
      obtain ⟨x, rfl⟩ := (exec_awaiting ha h).1 hawait
      have : t.pc.toNat = s.pc.toNat := hpc
      omega
    waitingLoaded := fun _ => hloaded.trans hl
    returns := exec_returns hinv (by omega) h
    progLen := hlen ▸ hinv.progLen
    unloaded := by rw [hloaded, hlen]; exact hinv.unloaded }

/-! ## Cycles, commands, steps -/

/-- The poll completes at `PC + 2`, with `PC` at most 0xFFE while a key was awaited, or only records the keypad. -/
theorem stateInv_keyWaitPoll {s : State} (hinv : StateInv s) (ha : s.awaiting = true) :
    StateInv (keyWaitPoll s) := by
  obtain ⟨k, -, hpoll⟩ | ⟨-, hpoll⟩ := keyWaitPoll_cases s
  · have hp := hinv.waitingPc ha
    rw [hpoll]
    exact {
      memory := hinv.memory
      pc := by rw [State.goto_pc, BitVec.toNat_add]; simp; omega
      waitingPc := nofun
      waitingLoaded := nofun
      returns := hinv.returns
      progLen := hinv.progLen
      unloaded := hinv.unloaded }
  · rw [hpoll]
    exact hinv.of_eq rfl rfl rfl rfl rfl rfl rfl

theorem stateInv_of_runCycle {s t : State} (hinv : StateInv s) (h : runCycle s = .next t) : StateInv t := by
  obtain ⟨-, ⟨ha, rfl⟩ | ⟨hfetch, i, -, hexec⟩⟩ := runCycle_next h
  · exact stateInv_keyWaitPoll hinv ha
  · exact stateInv_of_exec hinv hfetch hexec

/-- A program of at most 3584 bytes ends inside the Memory Image. -/
theorem stateInv_of_load {buf : Option (List Byte)} {s t : State} (hinv : StateInv s) (h : load buf s = .next t) :
    StateInv t := by
  obtain ⟨bytes, -, hle, rfl⟩ := load_next h
  exact {
    memory := Memory.wf_writeBytes bytes hinv.memory (by simp; omega)
    pc := hinv.pc
    waitingPc := hinv.waitingPc
    waitingLoaded := fun _ => rfl
    returns := hinv.returns
    progLen := hle
    unloaded := nofun }

theorem stateInv_of_perform {c : Command} {s t : State} (hinv : StateInv s) (h : perform c s = .next t) :
    StateInv t := by
  cases c with
  | setDefaults => cases h; exact resetMeetsTheInvariant.of_eq rfl rfl rfl rfl rfl rfl rfl
  | load buf => exact stateInv_of_load hinv h
  | start => obtain ⟨-, rfl⟩ := start_next h; exact hinv
  | runCycle => exact stateInv_of_runCycle hinv h
  | _ => cases h; exact hinv.of_eq rfl rfl rfl rfl rfl rfl rfl

/-- Settles O15: a step is one cycle, or one command from the same state without it in the queue. -/
theorem everyStepKeepsTheInvariant : Obligations.EveryStepKeepsTheInvariant := by
  intro s t hinv h
  obtain ⟨-, hcycle⟩ | ⟨c, rest, -, hperform⟩ := step_next h
  · exact stateInv_of_runCycle hinv hcycle
  · have hrest : StateInv (s.setInbox rest) := hinv.of_eq rfl rfl rfl rfl rfl rfl rfl
    exact stateInv_of_perform hrest hperform

end Sys2Proof.Machine
end

section
/-! Proofs about the instruction cycle of 40_cycle.md over all instructions, and about the waiting commands (R5). -/

namespace Sys2Proof.Machine

/-! ## The cycle's checks and the faults of an instruction (R60, R120) -/

theorem runCycle_of_not_loaded {s : State} (h : s.loaded = false) : runCycle s = .fault .programNotLoaded := by
  simp [runCycle, raise, h]

theorem runCycle_of_awaiting {s : State} (hl : s.loaded = true) (ha : s.awaiting = true) :
    runCycle s = .next (keyWaitPoll s) := by
  simp [runCycle, hl, ha]

/-- Settles O7: one lemma for each way a cycle can go. -/
theorem cycleChecksInOrder : Obligations.CycleChecksInOrder := fun _ =>
  ⟨runCycle_of_not_loaded, runCycle_of_awaiting,
    fun hl ha hp => runCycle_of_fetchWord_eq_none hl ha (fetchWord_eq_none.2 hp),
    runCycle_of_decode_eq_none, fun _ => runCycle_of_decode⟩

/-- No instruction is refused: every arm completes, or faults at its range check or at the stack. -/
theorem exec_ne_refused (i : Instr) (s : State) (r : Refusal) : exec i s ≠ .refused r := by
  cases i with
  | ret => simp only [exec, execRet]; cases s.pop <;> exact nofun
  | call => simp only [exec, execCall]; cases s.push (s.pc + 2) <;> exact nofun
  | storeRegs | loadRegs | ldB => exact withinMemory_ne_refused
  | drw x y n =>
    simp only [exec, execDrw]
    split
    · exact nofun
    · exact withinMemory_ne_refused
  | _ => exact nofun

/-- Settles O8: the faults are those of `FaultsWith`, and the outcome that is neither a fault nor a refusal is a next
state. -/
theorem instructionsFaultExactlyWhereStated : Obligations.InstructionsFaultExactlyWhereStated := by
  refine fun i s => ⟨fun f => exec_fault_iff, exec_ne_refused i s, fun hnone => ?_⟩
  cases h : exec i s with
  | next t => exact ⟨t, rfl⟩
  | fault f => exact absurd (exec_fault_iff.1 h) (hnone f)
  | refused r => exact absurd h (exec_ne_refused i s r)

/-! ## A step at a decoded instruction -/

/-- Bytes that decode are the bytes of a word that decodes. -/
theorem decodeWord_of_decode_pair {hi lo : Byte} {i : Instr} {rest : List Byte}
    (h : decode [hi, lo] = .ok (i, rest)) : decodeWord (wordOfBytes hi lo) = some i := by
  rw [decode] at h
  split at h <;> simp_all

/-- Settles O6: the cycle gets as far as the instruction, and taking the command from the queue does not change the word
at `PC`. -/
theorem stepRunsTheDecodedInstruction : Obligations.StepRunsTheDecodedInstruction := by
  intro s i rest hl ha hp hdec
  have hword : decodeWord (wordAtPc s) = some i := decodeWord_of_decode_pair hdec
  constructor
  · intro hq
    rw [step_of_inbox_nil hq]
    exact runCycle_of_decode ⟨hl, ha, hp⟩ hword
  · intro q hq
    rw [step_of_inbox_cons hq]
    exact runCycle_of_decode (s := s.setInbox q) ⟨hl, ha, hp⟩ hword

/-! ## What a cycle leaves alone (R65, R66) -/

/-- The poll keeps every part but the registers, `PC` and the key wait. -/
theorem keepsAllBut_keyWaitPoll (s : State) : KeepsAllBut [.regs, .keyWait, .pc] s (keyWaitPoll s) := by
  intro p hp
  obtain ⟨k, -, hpoll⟩ | ⟨-, hpoll⟩ := keyWaitPoll_cases s <;> rw [hpoll]
  all_goals
    cases p with
    | regs | keyWait | pc => simp at hp
    | _ => simp [Part.same]

/-- An instruction that changes DT is `LD DT, Vx`. -/
theorem exec_dt {i : Instr} {s t : State} (h : exec i s = .next t) :
    t.dt = s.dt ∨ ∃ x, i = .ldDtVx x ∧ t.dt = s.reg x := by
  have hkeep := exec_keepsAllBut_writtenParts h .dt
  cases i with
  | ldDtVx x => cases h; exact .inr ⟨x, rfl, rfl⟩
  | _ => exact .inl (hkeep (by simp [writtenParts]))

/-- An instruction that changes ST is `LD ST, Vx`. -/
theorem exec_st {i : Instr} {s t : State} (h : exec i s = .next t) :
    t.st = s.st ∨ ∃ x, i = .ldStVx x ∧ t.st = s.reg x := by
  have hkeep := exec_keepsAllBut_writtenParts h .st
  cases i with
  | ldStVx x => cases h; exact .inr ⟨x, rfl, rfl⟩
  | _ => exact .inl (hkeep (by simp [writtenParts]))

/-- Settles O57: neither the poll nor an instruction writes the host's parts, and a timer only its own instruction. -/
theorem cycleLeavesHostStateAlone : Obligations.CycleLeavesHostStateAlone := by
  intro s t h
  obtain ⟨-, ⟨-, rfl⟩ | ⟨-, i, hdec, hexec⟩⟩ := runCycle_next h
  · have hkeep := keepsAllBut_keyWaitPoll s
    exact ⟨hkeep .keypad (by simp), hkeep .loaded (by simp), hkeep .progLen (by simp),
      .inl (hkeep .dt (by simp)), .inl (hkeep .st (by simp))⟩
  · have hkeep := exec_keepsAllBut_writtenParts hexec
    obtain ⟨hkeypad, hloaded, hlen⟩ := hostPart_notMem_writtenParts i
    refine ⟨hkeep .keypad hkeypad, hkeep .loaded hloaded, hkeep .progLen hlen,
      (exec_dt hexec).imp_right ?_, (exec_st hexec).imp_right ?_⟩
    all_goals
      rintro ⟨x, rfl, hx⟩
      exact ⟨x, hdec, hx⟩

/-- The jump whose word stands at its own address leaves the state as it is. -/
theorem runCycle_of_selfJump {s : State} (hfetch : CanFetch s)
    (hword : (wordAtPc s).toNat = 0x1000 + s.pc.toNat) : runCycle s = .next s := by
  have hp : s.pc.toNat + 1 ≤ 0xFFF := hfetch.2.2
  have hpc : zextAddr (s.pc.setWidth 12) = s.pc :=
    BitVec.eq_of_toNat_eq (by rw [toNat_zextAddr, BitVec.toNat_setWidth]; omega)
  have hjp : wordAtPc s = encodeWord (.jp (s.pc.setWidth 12)) :=
    BitVec.eq_of_toNat_eq (by rw [hword, encodeWord, toNat_formatNNN, BitVec.toNat_setWidth]; simp; omega)
  rw [runCycle_of_decode hfetch (hjp ▸ decodeWord_encodeWord rfl)]
  exact congrArg Host.Outcome.next (congrArg s.goto hpc)

/-- Settles O58, by induction on the number of steps. -/
theorem selfJumpIsTheEndOfARun : Obligations.SelfJumpIsTheEndOfARun := by
  intro s k hfetch hq hword
  induction k with
  | zero => rfl
  | succ k ih =>
    have hstep : step s = .next s := by rw [step_of_inbox_nil hq, runCycle_of_selfJump hfetch hword]
    exact (run_succ_of_next k hstep).trans ih

/-! ## The waiting commands are invisible -/

/-- An outcome whose next state, if there is one, has the queue `q`. -/
def withInbox (q : List Command) : Host.Outcome State Fault Refusal → Host.Outcome State Fault Refusal
  | .next t => .next (t.setInbox q)
  | .fault f => .fault f
  | .refused r => .refused r

theorem withinMemory_setInbox {last : Nat} {t u : State} {q : List Command} (h : u = t.setInbox q) :
    withinMemory last u = withInbox q (withinMemory last t) := by
  subst h
  unfold withinMemory
  split <;> rfl

theorem skipIf_setInbox (s : State) (c : Bool) (q : List Command) :
    (s.setInbox q).skipIf c = (s.skipIf c).setInbox q := by
  cases c <;> rfl

theorem pop_setInbox (s : State) (q : List Command) :
    (s.setInbox q).pop = s.pop.map fun r => (r.1, r.2.setInbox q) := by
  unfold State.pop
  by_cases h : s.sp.val = 0
  · simp [h]
  · simp [h, State.setInbox, State.setStack]

theorem push_setInbox (s : State) (a : Word) (q : List Command) :
    (s.setInbox q).push a = (s.push a).map fun t => t.setInbox q := by
  unfold State.push
  by_cases h : s.sp.val < 16
  · simp [h, State.setInbox, State.setStack]
  · simp [h]

/-- No instruction reads the queue. -/
theorem exec_setInbox (i : Instr) (s : State) (q : List Command) : exec i (s.setInbox q) = withInbox q (exec i s) := by
  cases i with
  | ret =>
    simp only [exec, execRet, pop_setInbox]
    cases s.pop <;> rfl
  | call =>
    simp only [exec, execCall, push_setInbox, State.setInbox_pc]
    cases s.push (s.pc + 2) <;> rfl
  | seByte | sneByte | seReg | sneReg | skp | sknp => exact congrArg Host.Outcome.next (skipIf_setInbox s _ q)
  | storeRegs | loadRegs | ldB => exact withinMemory_setInbox rfl
  | drw x y n =>
    simp only [exec, execDrw]
    split
    · rfl
    · exact withinMemory_setInbox rfl
  | _ => rfl

/-- Settles O59: the outcome with the other queue is the outcome, with that queue in its next state. -/
theorem instructionsIgnoreWaitingCommands : Obligations.InstructionsIgnoreWaitingCommands := by
  intro i s q
  rw [exec_setInbox]
  exact ⟨fun t h => by rw [h]; rfl, fun f h => by rw [h]; rfl⟩

/-! ## Commands in the order of their arrival (R5, R121) -/

theorem keyWaitPoll_setInbox (s : State) (q : List Command) :
    keyWaitPoll (s.setInbox q) = (keyWaitPoll s).setInbox q := by
  have hkeys : (s.setInbox q).newlyPressed = s.newlyPressed := rfl
  unfold keyWaitPoll
  rw [hkeys]
  cases leastKey s.newlyPressed <;> rfl

/-- No cycle reads the queue, check by check. -/
theorem runCycle_setInbox (s : State) (q : List Command) :
    runCycle (s.setInbox q) = withInbox q (runCycle s) := by
  cases hl : s.loaded with
  | false => rw [runCycle_of_not_loaded hl, runCycle_of_not_loaded (s := s.setInbox q) hl]; rfl
  | true =>
    cases ha : s.awaiting with
    | true =>
      rw [runCycle_of_awaiting hl ha, runCycle_of_awaiting (s := s.setInbox q) hl ha, keyWaitPoll_setInbox]
      rfl
    | false =>
      by_cases hp : s.pc.toNat + 1 ≤ 0xFFF
      · have hfetch : CanFetch s := ⟨hl, ha, hp⟩
        have hfetchq : CanFetch (s.setInbox q) := hfetch
        cases hdec : decodeWord (wordAtPc s) with
        | none =>
          rw [runCycle_of_decode_eq_none hfetch hdec, runCycle_of_decode_eq_none hfetchq hdec]
          rfl
        | some i => rw [runCycle_of_decode hfetch hdec, runCycle_of_decode hfetchq hdec, exec_setInbox]
      · have hnone : fetchWord s = none := fetchWord_eq_none.2 (not_le.1 hp)
        rw [runCycle_of_fetchWord_eq_none hl ha hnone,
          runCycle_of_fetchWord_eq_none (s := s.setInbox q) hl ha hnone]
        rfl

/-- No command reads the commands behind it. -/
theorem perform_setInbox (c : Command) (s : State) (q : List Command) :
    perform c (s.setInbox q) = withInbox q (perform c s) := by
  cases c with
  | load buf =>
    cases buf with
    | none => rfl
    | some bytes =>
      simp only [perform, load]
      split <;> rfl
  | start =>
    by_cases hl : s.loaded = false <;> simp [perform, start, raise, withInbox, hl]
  | runCycle => exact runCycle_setInbox s q
  | _ => rfl

theorem runCycle_ne_refused (s : State) (r : Refusal) : runCycle s ≠ .refused r := by
  unfold runCycle
  split
  · exact nofun
  · split
    · exact nofun
    · split
      · exact nofun
      · split
        · exact nofun
        · exact exec_ne_refused _ s r

theorem perform_ne_refused (c : Command) (s : State) (r : Refusal) : perform c s ≠ .refused r := by
  cases c with
  | load buf =>
    cases buf with
    | none => exact nofun
    | some bytes =>
      simp only [perform, load]
      split <;> exact nofun
  | start =>
    simp only [perform, start]
    split <;> exact nofun
  | runCycle => exact runCycle_ne_refused s r
  | _ => exact nofun

/-- What a successful command returns is no fault. -/
theorem answer_ne_fault (c : Command) (s : State) (f : Fault) : answer c s ≠ .fault f := by
  cases c <;> exact nofun

theorem serve_of_fault {c : Command} {s : State} {f : Fault} (h : perform c s = .fault f) :
    serve c s = (.fault f, s) := by
  simp [serve, h]

/-- A fault response comes from a fault of the transition. -/
theorem perform_of_serve_fault {c : Command} {s t : State} {f : Fault} (h : serve c s = (.fault f, t)) :
    perform c s = .fault f ∧ t = s := by
  cases hp : perform c s with
  | next u =>
    rw [serve_of_next hp] at h
    exact absurd (congrArg Prod.fst h) (answer_ne_fault c s f)
  | fault g =>
    rw [serve_of_fault hp] at h
    obtain ⟨hg, hs⟩ := Prod.mk.inj h
    cases hg
    exact ⟨rfl, hs.symm⟩
  | refused r => exact absurd hp (perform_ne_refused c s r)

/-- Settles O10: the state after a fault is the state before the command, so the command meets the same fault. -/
theorem faultLeavesStateAndRepeats : Obligations.FaultLeavesStateAndRepeats := by
  intro c s t f h
  obtain ⟨hp, rfl⟩ := perform_of_serve_fault h
  exact ⟨rfl, h⟩

/-- As many steps as commands wait: they complete in the state that serving those commands reaches, where none responds
with a fault, and end at a fault where one does. -/
theorem run_setInbox (cs : List Command) : ∀ s : State,
    ((∀ f, Response.fault f ∉ (serveAll cs (s.setInbox [])).1) ∧
      core.run cs.length (s.setInbox cs) = .next (serveAll cs (s.setInbox [])).2) ∨
    ((∃ f, Response.fault f ∈ (serveAll cs (s.setInbox [])).1) ∧
      ∃ f : Fault, core.run cs.length (s.setInbox cs) = .fault f) := by
  induction cs with
  | nil => exact fun s => .inl ⟨fun f => List.not_mem_nil, rfl⟩
  | cons c cs ih =>
    intro s
    have hstep : step (s.setInbox (c :: cs)) = withInbox cs (perform c s) :=
      (step_of_inbox_cons rfl).trans (perform_setInbox c s cs)
    have hserve : perform c (s.setInbox []) = withInbox [] (perform c s) := perform_setInbox c s []
    cases hp : perform c s with
    | next u =>
      rw [hp] at hstep hserve
      rw [List.length_cons, run_succ_of_next _ hstep, serveAll, serve_of_next hserve]
      have hanswer (f : Fault) : Response.fault f ≠ answer c (s.setInbox []) := (answer_ne_fault c _ f).symm
      simpa [hanswer] using ih u
    | fault f =>
      rw [hp] at hstep hserve
      rw [List.length_cons, run_succ_of_fault _ hstep, serveAll, serve_of_fault hserve]
      exact .inr ⟨⟨f, List.mem_cons_self⟩, f, rfl⟩
    | refused r => exact absurd hp (perform_ne_refused c s r)

/-- Settles O60: a run over the queue completes, in the state that serving reaches, exactly when no response is a
fault. -/
theorem commandsRunInArrivalOrder : Obligations.CommandsRunInArrivalOrder := by
  intro cs s
  obtain ⟨hsafe, hrun⟩ | ⟨⟨f, hf⟩, g, hrun⟩ := run_setInbox cs s
  · exact ⟨fun t h => (Host.Outcome.next.inj (hrun.symm.trans h)).symm,
      iff_of_true ⟨_, hrun⟩ hsafe⟩
  · refine ⟨fun t h => ?_, iff_of_false ?_ fun hsafe => hsafe f hf⟩
    · cases hrun.symm.trans h
    · rintro ⟨t, h⟩
      cases hrun.symm.trans h

end Sys2Proof.Machine
end

section
/-! Proofs about the control-flow instructions of 41_control_flow.md that clear the screen, use the stack or always
fault, and about the index register. -/

namespace Sys2Proof.Machine

/-- Settles O16: the screen is blank, and the dirty flag takes whether a cell was lit. -/
theorem clearScreen : Obligations.ClearScreen := fun s =>
  ⟨(s.setCells Framebuffer.blank s.fb.anyLit).advance, rfl, Framebuffer.cell_blank,
    by simp [Framebuffer.anyLit_iff], rfl, keepsAllBut_setCells_advance s _ _⟩

/-- Settles O17: the pop names the entry below the depth and leaves the array alone. -/
theorem returnPopsIntoPc : Obligations.ReturnPopsIntoPc := by
  refine fun s => ⟨fun h => exec_fault_iff.2 ⟨h, rfl⟩, fun j hj => ?_⟩
  refine ⟨(s.setStack s.stack ⟨j.val, Nat.lt_succ_of_lt j.isLt⟩).goto s.stack[j], ?_, rfl, rfl, rfl,
    keepsAllBut_setStack_goto s _ _ _⟩
  rw [exec, execRet, State.pop_of_eq_succ j hj]

/-- Settles O18: the push writes the one entry at the depth. -/
theorem callPushesAndJumps : Obligations.CallPushesAndJumps := by
  refine fun nnn s => ⟨fun h => exec_fault_iff.2 ⟨h, rfl⟩, fun j hj => ?_⟩
  have hlt : s.sp.val < 16 := hj ▸ j.isLt
  refine ⟨(s.setStack (s.stack.set s.sp.val (s.pc + 2) hlt) ⟨s.sp.val + 1, Nat.succ_lt_succ hlt⟩).goto
    (zextAddr nnn), ?_, rfl, ?_, ?_, toNat_zextAddr nnn, keepsAllBut_setStack_goto s _ _ _⟩
  · rw [exec, execCall, State.push_of_lt _ hlt]
  · simp [hj]
  · intro k hk
    have hne : j.val ≠ k.val := fun h => hk (Fin.ext h.symm)
    simp [hj, hne]

theorem Part.same_trans {p : Part} {s t u : State} (h : p.same s t) (k : p.same t u) : p.same s u := by
  cases p with
  | stack => exact ⟨k.1.trans h.1, k.2.trans h.2⟩
  | keyWait => exact ⟨k.1.trans h.1, k.2.1.trans h.2.1, k.2.2.trans h.2.2⟩
  | regs | memory => exact fun r => (k r).trans (h r)
  | cells => exact fun x y => (k x y).trans (h x y)
  | _ => exact Eq.trans k h

theorem KeepsAllBut.trans {changed : List Part} {s t u : State} (h : KeepsAllBut changed s t)
    (k : KeepsAllBut changed t u) : KeepsAllBut changed s u :=
  fun p hp => Part.same_trans (h p hp) (k p hp)

/-- Settles O19: `RET` pops the entry `CALL` pushed, and no entry below it was written. -/
theorem returnUndoesCall : Obligations.ReturnUndoesCall := by
  intro nnn s hlt
  obtain ⟨t, hcall, hdepth, hpushed, hothers, -, hframe⟩ := (callPushesAndJumps nnn s).2 ⟨s.sp.val, hlt⟩ rfl
  obtain ⟨u, hret, hsp, hpc, hstack, hframe'⟩ := (returnPopsIntoPc t).2 ⟨s.sp.val, hlt⟩ hdepth
  refine ⟨t, u, hcall, hret, hpc.trans hpushed, Fin.ext hsp, fun j hj => ?_, hframe.trans hframe'⟩
  rw [hstack]
  exact hothers j fun h => absurd (congrArg Fin.val h) (Nat.ne_of_lt hj)

/-- Settles O20: the one fault of `SYS addr` has no condition. -/
theorem sysFaults : Obligations.SysFaults := fun _ _ => exec_fault_iff.2 rfl

/-- Settles O22: a 12-bit address and a byte do not reach 16 bits, so the sum does not wrap. -/
theorem jumpWithOffsetAddsV0 : Obligations.JumpWithOffsetAddsV0 := by
  intro nnn s
  refine ⟨s.goto (zextAddr nnn + zextByte (s.reg 0)), rfl, ?_, keepsAllBut_goto s _⟩
  rw [State.goto_pc, BitVec.toNat_add, toNat_zextAddr, toNat_zextByte]
  omega

/-- Settles O29: the glyph address of a digit 0 to 15. -/
theorem pointIndexAtGlyph : Obligations.PointIndexAtGlyph := by
  intro x s
  have hglyph : (glyphAddress (lowNibble (s.reg x))).toNat = 0x050 + 5 * ((s.reg x).toNat % 16) := by
    rw [toNat_glyphAddress, val_lowNibble]
  exact ⟨(s.setIndex (glyphAddress (lowNibble (s.reg x)))).advance, rfl, hglyph, by simp; omega, rfl,
    keepsAllBut_setIndex_advance s _⟩

/-- Settles O31: the sum of two 16-bit words. -/
theorem addToIndexWrapsAt16Bits : Obligations.AddToIndexWrapsAt16Bits := fun x s =>
  ⟨(s.setIndex (s.i + zextByte (s.reg x))).advance, rfl, by simp, rfl, keepsAllBut_setIndex_advance s _⟩

end Sys2Proof.Machine
end

section
/-! Proofs about the arithmetic and logic instructions of 43_arith_logic.md. -/

namespace Sys2Proof.Machine

/-! ## One register and no flag -/

/-- Settles O30: the byte sum is the sum modulo 256, and one register is written. -/
theorem addImmediateSetsNoFlag : Obligations.AddImmediateSetsNoFlag := by
  intro x nn s
  obtain ⟨t, hexec, hreg, hpc, hregs, hrest⟩ := exec_of_setReg (i := .addByte x nn) (s := s) rfl
  exact ⟨t, hexec, by rw [hreg, BitVec.toNat_add], hregs, hpc, hrest⟩

/-- An instruction whose arm combines `V[x]` and `V[y]` by an operation that works bit by bit. -/
theorem exec_of_bitwise {i : Instr} {s : State} {x y : Reg} {op : Byte → Byte → Byte} {bit : Bool → Bool → Bool}
    (hexec : exec i s = .next (s.setReg x (op (s.reg x) (s.reg y))).advance)
    (hop : ∀ a b j, (op a b).getLsbD j = bit (a.getLsbD j) (b.getLsbD j)) :
    ∃ t, exec i s = .next t ∧
      (∀ j < 8, (t.reg x).getLsbD j = bit ((s.reg x).getLsbD j) ((s.reg y).getLsbD j)) ∧
      KeepsRegsBut [x] s t ∧ t.pc = s.pc + 2 ∧ KeepsAllBut [.regs, .pc] s t := by
  obtain ⟨t, hexec, hreg, hpc, hregs, hrest⟩ := exec_of_setReg hexec
  exact ⟨t, hexec, fun j _ => by rw [hreg, hop], hregs, hpc, hrest⟩

/-- Settles O34: each of the three is one bitwise operation into `V[x]`. -/
theorem logicBitByBit : Obligations.LogicBitByBit := fun _ _ _ =>
  ⟨exec_of_bitwise rfl fun _ _ _ => BitVec.getLsbD_or, exec_of_bitwise rfl fun _ _ _ => BitVec.getLsbD_and,
    exec_of_bitwise rfl fun _ _ _ => BitVec.getLsbD_xor⟩

/-- Settles O36: the mask works bit by bit on the free byte, whatever it is. -/
theorem randomByteIsMasked : Obligations.RandomByteIsMasked := fun x nn s =>
  ⟨(s.setReg x (s.rnd &&& nn)).nextRnd.advance, rfl, fun j _ => by simp [State.rnd], rfl,
    keepsRegsBut_setReg_advance s x _, rfl, keepsAllBut_setReg_nextRnd_advance s x _⟩

/-! ## A result and a flag (R87) -/

/-- An instruction whose arm writes the difference of two register values and its no-borrow flag (D19). -/
theorem exec_of_difference {i : Instr} {s : State} {x : Reg} {a b : Byte}
    (hexec : exec i s = .next (s.setResultAndFlag x (a - b) (noBorrow a b)).advance) :
    ∃ t, exec i s = .next t ∧ (x ≠ vf → (t.reg x).toNat = (a.toNat + 256 - b.toNat) % 256) ∧
      t.reg vf = (if a.toNat ≥ b.toNat then 1 else 0) ∧ KeepsRegsBut [x, vf] s t ∧ t.pc = s.pc + 2 ∧
      KeepsAllBut [.regs, .pc] s t := by
  obtain ⟨t, hexec, hresult, hflag, hframe⟩ := exec_of_setResultAndFlag hexec
  refine ⟨t, hexec, fun hx => ?_, hflag.trans (flagByte_decide _), hframe⟩
  rw [hresult hx, BitVec.toNat_sub]
  omega

/-- Settles O33: the two differ in the order of the operands. -/
theorem subtractionsSetNoBorrow : Obligations.SubtractionsSetNoBorrow := fun _ _ _ =>
  ⟨exec_of_difference rfl, exec_of_difference rfl⟩

/-- A bit of a byte as the flag's value. -/
theorem toNat_flagByte_getLsbD (a : Byte) (k : Nat) : (flagByte (a.getLsbD k)).toNat = a.toNat / 2 ^ k % 2 := by
  rw [BitVec.getLsbD, Nat.testBit_eq_decide_div_mod_eq, flagByte_decide]
  split <;> simp <;> omega

/-- Settles O35: a shift by one is a halving or a doubling, and the flag is bit 0 or bit 7 of the value before. -/
theorem shiftsCaptureTheBitShiftedOut : Obligations.ShiftsCaptureTheBitShiftedOut := by
  intro x y s
  obtain ⟨t, hshr, hhalf, hlow, hframe⟩ := exec_of_setResultAndFlag (i := .shr x y) (s := s) rfl
  obtain ⟨u, hshl, hdouble, hhigh, hframe'⟩ := exec_of_setResultAndFlag (i := .shl x y) (s := s) rfl
  refine ⟨⟨t, hshr, fun hx => ?_, ?_, hframe⟩, ⟨u, hshl, fun hx => ?_, ?_, hframe'⟩⟩
  · rw [hhalf hx, BitVec.toNat_ushiftRight, Nat.shiftRight_eq_div_pow, Nat.pow_one]
  · rw [hlow, shiftedOutRight, toNat_flagByte_getLsbD, Nat.pow_zero, Nat.div_one]
  · rw [hdouble hx, BitVec.toNat_shiftLeft, Nat.shiftLeft_eq, Nat.pow_one]
  · rw [hhigh, shiftedOutLeft, toNat_flagByte_getLsbD]
    omega

end Sys2Proof.Machine
end

section
/-! Proofs about memory: its canonical form, and the instructions of 42_moves.md that store and load bytes at `I`. -/

namespace Sys2Proof.Machine

/-! ## The canonical form -/

/-- A listed byte tells a memory from every canonical memory that lists only addresses above it. -/
theorem Memory.read_cons_ne {k hi : Nat} {b : Byte} {m n : Memory} (hb : b ≠ resetByte k)
    (hn : wfFrom hi n = true) (hk : k < hi) : Memory.read ((k, b) :: m) k ≠ n.read k := by
  rw [read_cons, if_pos rfl, read_of_wfFrom hn k hk]
  exact hb

theorem Memory.eq_of_wfFrom_of_read {m : Memory} : ∀ {n : Memory} {lo : Nat}, wfFrom lo m = true →
    wfFrom lo n = true → (∀ a, m.read a = n.read a) → m = n := by
  induction m with
  | nil =>
    intro n lo _ hn hread
    cases n with
    | nil => rfl
    | cons e n =>
      obtain ⟨k, b⟩ := e
      obtain ⟨-, -, hb, -⟩ := (wfFrom_cons ..).1 hn
      exact absurd (hread k).symm (read_cons_ne (hi := k + 1) hb rfl (Nat.lt_succ_self k))
  | cons e m ih =>
    obtain ⟨k, b⟩ := e
    intro n lo hm hn hread
    obtain ⟨-, hktop, hb, hm'⟩ := (wfFrom_cons ..).1 hm
    cases n with
    | nil => exact absurd (hread k) (read_cons_ne (hi := k + 1) hb rfl (Nat.lt_succ_self k))
    | cons f n =>
      obtain ⟨l, c⟩ := f
      obtain ⟨-, hltop, hc, hn'⟩ := (wfFrom_cons ..).1 hn
      obtain hlt | rfl | hgt := Nat.lt_trichotomy k l
      · have hn : wfFrom l ((l, c) :: n) = true := (wfFrom_cons ..).2 ⟨Nat.le_refl l, hltop, hc, hn'⟩
        exact absurd (hread k) (read_cons_ne hb hn hlt)
      · have hbc : b = c := by simpa [read_cons] using hread k
        have htail (a : Nat) : Memory.read m a = Memory.read n a := by
          by_cases ha : k = a
          · rw [read_of_wfFrom hm' a (by omega), read_of_wfFrom hn' a (by omega)]
          · simpa [read_cons, ha] using hread a
        rw [hbc, ih hm' hn' htail]
      · have hm : wfFrom k ((k, b) :: m) = true := (wfFrom_cons ..).2 ⟨Nat.le_refl k, hktop, hb, hm'⟩
        exact absurd (hread l).symm (read_cons_ne hc hm hgt)

/-- Settles O11, by induction on the first memory: the first entries are the same, and so are the memories after
them. -/
theorem canonicalMemoriesAreEqualByReads : Obligations.CanonicalMemoriesAreEqualByReads := fun _ _ =>
  Memory.eq_of_wfFrom_of_read

/-! ## Stores at `I` -/

theorem keepsMemoryOutside_storeBytes_advance (s : State) (a : Nat) (bs : List Byte) :
    KeepsMemoryOutside a bs.length s (s.storeBytes a bs).advance :=
  fun c hc => (Memory.read_writeBytes bs s.mem a c).trans (if_neg hc)

theorem read_storeBytes_advance (s : State) (a : Nat) {bs : List Byte} {k : Nat} (hk : k < bs.length) :
    (s.storeBytes a bs).advance.mem.read (a + k) = bs.getD k 0 := by
  refine (Memory.read_writeBytes bs s.mem a (a + k)).trans ?_
  rw [if_pos (by omega), Nat.add_sub_cancel_left]

/-- An instruction whose arm stores the bytes `bs` at `I`, inside memory, does that and nothing else. -/
theorem exec_of_storeBytes {i : Instr} {s : State} {bs : List Byte} {last : Nat}
    (hexec : exec i s = withinMemory last (s.storeBytes s.i.toNat bs).advance) (hlast : last ≤ 0xFFF) :
    ∃ t, exec i s = .next t ∧ (∀ k < bs.length, t.mem.read (s.i.toNat + k) = bs.getD k 0) ∧
      KeepsMemoryOutside s.i.toNat bs.length s t ∧ t.pc = s.pc + 2 ∧ KeepsAllBut [.memory, .pc] s t :=
  ⟨(s.storeBytes s.i.toNat bs).advance, hexec.trans (withinMemory_of_le _ hlast),
    fun _ hk => read_storeBytes_advance s _ hk, keepsMemoryOutside_storeBytes_advance s _ bs, rfl,
    keepsAllBut_storeBytes_advance s _ bs⟩

/-- Settles O26: the bytes stored are the values of the first registers. -/
theorem storeRegistersAtIndex : Obligations.StoreRegistersAtIndex := by
  refine fun x s => ⟨fun h => exec_fault_iff.2 ⟨h, rfl⟩, fun hle => ?_⟩
  obtain ⟨t, hexec, hread, houtside, hpc, hrest⟩ := exec_of_storeBytes (i := .storeRegs x) rfl hle
  rw [State.length_firstRegs] at hread houtside
  refine ⟨t, hexec, fun r hr => ?_, houtside, hpc, hrest⟩
  have hrx : r.val ≤ x.val := hr
  rw [hread r.val (by omega), State.getD_firstRegs s x r hrx]

/-- Settles O12: the two bytes at the next `PC` are two of those the store has written. -/
theorem storeIsSeenByTheNextFetch : Obligations.StoreIsSeenByTheNextFetch := by
  intro x j k s hk hkx hp hj hle
  obtain ⟨t, hexec, hread, -, hpc, -⟩ := (storeRegistersAtIndex x s).2 hle
  have hkx' : k.val ≤ x.val := hkx
  have hjx : j ≤ x := Fin.le_def.2 (by omega)
  have hpc2 : t.pc.toNat = s.i.toNat + j.val := by
    rw [hpc, BitVec.toNat_add, hj]
    simp
    omega
  refine ⟨t, hexec, ?_⟩
  rw [fetchWord_of_le (by omega), wordAtPc, hpc2, hread j hjx, Nat.add_assoc, ← hk, hread k hkx]

theorem getD_decimalDigits_le (a : Byte) (k : Nat) (hk : k < 3) : ((decimalDigits a).getD k 0).toNat ≤ 9 := by
  interval_cases k <;> simp [decimalDigits] <;> omega

/-- The three digits of a byte make up its value. -/
theorem decimalDigits_value (a : Byte) :
    ((decimalDigits a).getD 0 0).toNat * 100 + ((decimalDigits a).getD 1 0).toNat * 10 +
      ((decimalDigits a).getD 2 0).toNat = a.toNat := by
  simp [decimalDigits]
  omega

/-- Settles O28: the bytes stored are the three digits. -/
theorem storeDecimalDigits : Obligations.StoreDecimalDigits := by
  refine fun x s => ⟨fun h => exec_fault_iff.2 ⟨h, rfl⟩, fun hle => ?_⟩
  obtain ⟨t, hexec, hread, hframe⟩ := exec_of_storeBytes (i := .ldB x) rfl hle
  rw [length_decimalDigits] at hread hframe
  refine ⟨t, hexec, fun k hk => ?_, ?_, hframe⟩
  · rw [hread k hk]
    exact getD_decimalDigits_le _ k hk
  · have hread0 := hread 0 (by omega)
    rw [Nat.add_zero] at hread0
    rw [hread0, hread 1 (by omega), hread 2 (by omega)]
    exact decimalDigits_value _

/-- Settles O27: the bytes loaded are those at `I`, one for each register up to `x`. -/
theorem loadRegistersFromIndex : Obligations.LoadRegistersFromIndex := by
  refine fun x s => ⟨fun h => exec_fault_iff.2 ⟨h, rfl⟩, fun hle => ?_⟩
  refine ⟨(s.setFirstRegs (s.mem.readBytes s.i.toNat (x.val + 1))).advance, withinMemory_of_le _ hle,
    fun r hr => ?_, fun r hr => ?_, rfl, keepsAllBut_setFirstRegs_advance s _⟩
  · have hrx : r.val ≤ x.val := hr
    rw [State.advance_eq, State.goto_reg, reg_setFirstRegs_readBytes, if_pos (by omega)]
  · have hxr : x.val < r.val := hr
    rw [State.advance_eq, State.goto_reg, reg_setFirstRegs_readBytes, if_neg (by omega)]

end Sys2Proof.Machine
end

section
/-! Proofs about drawing (44_draw.md): `DRW` in closed form, drawing twice, and the dirty flag. -/

namespace Sys2Proof.Machine

/-! ## `DRW` in closed form (R100) -/

/-- The drawing of `DRW Vx, Vy, n` inverts exactly the cells its sprite covers. -/
theorem inverts_drawing (s : State) (x y : Reg) (n : Nibble) :
    Drawing.Inverts ⟨s.fb, false, false⟩ (s.drawing x y n) (spriteCovers s x y n) := by
  have hlen : (s.mem.readBytes s.i.toNat n.toNat).length ≤ 32 := by rw [Memory.length_readBytes]; omega
  refine Drawing.inverts_congr (Drawing.inverts_plotSprite (s.reg x).toNat _ (s.reg y).toNat _ hlen) fun cx cy => ?_
  constructor
  · rintro ⟨r, hr, rfl, c, hc, hbit, rfl⟩
    exact ⟨r, c, by simpa using hr, hc, rfl, rfl, by simpa [Memory.readBytes] using hbit⟩
  · rintro ⟨r, c, hr, hc, hx, hy, hbit⟩
    exact ⟨r, by simpa using hr, Fin.ext hy, c, hc, by simpa [Memory.readBytes] using hbit, Fin.ext hx⟩

theorem exec_drw_of_le {x y : Reg} {n : Nibble} {s : State} (h : n ≠ 0#4 → s.i.toNat + n.toNat - 1 ≤ 0xFFF) :
    exec (.drw x y n) s = .next (s.finishDrawing (s.drawing x y n)) := by
  by_cases hn : n = 0#4
  · simp [exec, execDrw, hn]
  · simp only [exec, execDrw, if_neg hn]
    exact withinMemory_of_le _ (h hn)

theorem flagByte_eq_zero_or_one (c : Bool) : flagByte c = 0 ∨ flagByte c = 1 := by
  cases c
  · exact .inl rfl
  · exact .inr rfl

theorem flagByte_eq_one {c : Bool} : flagByte c = 1 ↔ c = true := by
  revert c
  decide

theorem reg_vf_finishDrawing (s : State) (d : Drawing) : (s.finishDrawing d).reg vf = flagByte d.collision := by
  simp [State.finishDrawing]

theorem keepsRegsBut_finishDrawing (s : State) (d : Drawing) : KeepsRegsBut [vf] s (s.finishDrawing d) :=
  keepsRegsBut_setReg_advance (s.setCells d.fb d.changed) vf _

/-- Settles O37: the drawing inverts the covered cells, and VF and the dirty flag take its two records. -/
theorem drawInvertsTheCoveredCells : Obligations.DrawInvertsTheCoveredCells := by
  intro x y n s
  constructor
  · intro hn hout
    have hpos : n.toNat > 0 := Nat.pos_of_ne_zero fun h0 => hn (BitVec.eq_of_toNat_eq h0)
    exact exec_fault_iff.2 ⟨hpos, hout, rfl⟩
  · intro hle
    have hdraw := inverts_drawing s x y n
    refine ⟨s.finishDrawing (s.drawing x y n), exec_drw_of_le hle, hdraw.cells, ?_, ?_, ?_,
      keepsRegsBut_finishDrawing s _, rfl, keepsAllBut_finishDrawing s _⟩
    · rw [reg_vf_finishDrawing]
      exact flagByte_eq_zero_or_one _
    · rw [reg_vf_finishDrawing, flagByte_eq_one, hdraw.collision]
      simp
    · have hdirty : (s.finishDrawing (s.drawing x y n)).dirty = (s.dirty || (s.drawing x y n).changed) := rfl
      rw [hdirty, Bool.or_eq_true, hdraw.changed]
      simp

/-! ## The XOR property (R102) -/

/-- The sprite and its place do not depend on the cells: a drawing at registers other than VF covers the same again. -/
theorem spriteCovers_finishDrawing {x y : Reg} (hx : x ≠ vf) (hy : y ≠ vf) (s : State) (d : Drawing) (n : Nibble)
    (cx : Fin 64) (cy : Fin 32) : spriteCovers (s.finishDrawing d) x y n cx cy ↔ spriteCovers s x y n cx cy := by
  have hkeep := keepsRegsBut_finishDrawing s d
  unfold spriteCovers
  rw [hkeep x (by simpa using hx), hkeep y (by simpa using hy)]
  rfl

/-- Settles O38: the second drawing inverts the same cells, and one that the first set is one that it clears. -/
theorem drawingTwiceRestoresTheScreen : Obligations.DrawingTwiceRestoresTheScreen := by
  intro x y n s t hx hy h
  obtain ⟨hle, rfl⟩ := drw_next h
  have hcovers := spriteCovers_finishDrawing hx hy s (s.drawing x y n) n
  have hfirst := (inverts_drawing s x y n).cells
  obtain ⟨u, hexec, hsecond, -, hvf, -⟩ :=
    (drawInvertsTheCoveredCells x y n (s.finishDrawing (s.drawing x y n))).2 hle
  refine ⟨u, hexec, fun cx cy => ?_, ?_⟩
  · have h1 : (s.finishDrawing (s.drawing x y n)).fb.cell cx cy = true ↔ _ := hfirst cx cy
    rw [Bool.eq_iff_iff, hsecond, hcovers, Bool.eq_false_iff, Ne, h1]
    by_cases hc : spriteCovers s x y n cx cy <;> simp [hc]
  · rintro ⟨cx, cy, hs, ht⟩
    obtain ⟨hlit, -⟩ | ⟨-, hc⟩ := (hfirst cx cy).1 ht
    · rw [hs] at hlit; cases hlit
    · exact hvf.2 ⟨cx, cy, (hcovers cx cy).2 hc, ht⟩

/-! ## The dirty flag (R101) -/

/-- Settles O39: a drawing changes exactly the cells it covers, `CLS` those that were lit, and no other instruction
writes a cell or the flag. -/
theorem dirtyTracksChangedCells : Obligations.DirtyTracksChangedCells := by
  intro i s t h
  have hkeep := exec_keepsAllBut_writtenParts h
  cases i with
  | drw x y n =>
    refine ⟨fun hdrw => absurd rfl (hdrw x y n), ?_⟩
    obtain ⟨hle, rfl⟩ := drw_next h
    obtain ⟨u, hexec, hcells, -, -, hdirty, -⟩ := (drawInvertsTheCoveredCells x y n s).2 hle
    cases h.symm.trans hexec
    have hchanged (cx : Fin 64) (cy : Fin 32) :
        (s.finishDrawing (s.drawing x y n)).fb.cell cx cy ≠ s.fb.cell cx cy ↔ spriteCovers s x y n cx cy := by
      have := hcells cx cy
      by_cases hc : spriteCovers s x y n cx cy <;> cases hs : s.fb.cell cx cy <;> simp_all
    simp only [hdirty, hchanged]
  | cls =>
    refine ⟨fun _ hcls => absurd rfl hcls, ?_⟩
    cases h
    simp [Framebuffer.anyLit_iff]
  | _ =>
    have hcells : ∀ cx cy, t.fb.cell cx cy = s.fb.cell cx cy := hkeep .cells (by simp [writtenParts])
    have hdirty : t.dirty = s.dirty := hkeep .dirty (by simp [writtenParts])
    exact ⟨fun _ _ => hcells, by simp [hdirty, hcells]⟩

end Sys2Proof.Machine
end

section
/-! Proofs about the keypad instructions and the key wait of 45_input.md. -/

namespace Sys2Proof.Machine

/-- Settles O40: both skip on the key of the low nibble. -/
theorem keySkips : Obligations.KeySkips := fun x s =>
  ⟨exec_of_skipIf rfl (by rw [State.keyHeld_eq]), exec_of_skipIf rfl (by rw [State.keyHeld_eq, Bool.not_eq_true'])⟩

/-- Settles O41: suspending writes the key-wait fields only. -/
theorem keyWaitBegins : Obligations.KeyWaitBegins := fun x s =>
  ⟨s.suspend x, rfl, rfl, rfl, rfl, keepsAllBut_suspend s x⟩

/-! ## The poll (R106) -/

theorem getLsbD_newlyPressed (s : State) (k : Reg) :
    s.newlyPressed.getLsbD k.val = (s.keypad.getLsbD k.val && !s.keyPrev.getLsbD k.val) := by
  simp [State.newlyPressed]

theorem keyWaitPoll_of_leastKey {s : State} {k : Reg} (h : leastKey s.newlyPressed = some k) :
    keyWaitPoll s = (s.setReg s.waitReg (BitVec.ofNat 8 k.val)).resume.goto (s.pc + 2) := by
  obtain ⟨l, hl, hpoll⟩ | ⟨hnone, -⟩ := keyWaitPoll_cases s
  · cases h.symm.trans hl
    exact hpoll
  · cases h.symm.trans (leastKey_eq_none.2 hnone)

theorem keyWaitPoll_of_no_press {s : State} (h : s.newlyPressed = 0#16) : keyWaitPoll s = s.recordKeys := by
  obtain ⟨l, hl, -⟩ | ⟨-, hpoll⟩ := keyWaitPoll_cases s
  · cases hl.symm.trans (leastKey_eq_none.2 h)
  · exact hpoll

theorem keepsAllBut_recordKeys (s : State) : KeepsAllBut [.keyWait] s s.recordKeys := by
  intro p hp
  cases p with
  | keyWait => simp at hp
  | _ => simp [Part.same]

/-- Settles O42: a key is newly pressed when it is held now and was not at the previous poll, and the poll takes the
least such key. -/
theorem keyWaitPollCompletesOnAPress : Obligations.KeyWaitPollCompletesOnAPress := by
  intro s hl ha
  have hcycle := runCycle_of_awaiting hl ha
  constructor
  · intro k hnow hbefore hleast
    have hkey : leastKey s.newlyPressed = some k := by
      refine leastKey_eq_some.2 ⟨by rw [getLsbD_newlyPressed, hnow, hbefore]; rfl, fun j hj => ?_⟩
      have := hleast j hj
      rw [getLsbD_newlyPressed]
      cases hn : s.keypad.getLsbD j.val <;> simp_all
    have hpoll := keyWaitPoll_of_leastKey hkey
    refine ⟨keyWaitPoll s, hcycle, ?_, ?_, ?_, ?_, ?_, ?_, keepsAllBut_keyWaitPoll s⟩
    all_goals rw [hpoll]
    · simp; omega
    · rfl
    · rfl
    · rfl
    · rfl
    · exact keepsRegsBut_setReg_advance s s.waitReg _
  · intro hheld
    have hnone : s.newlyPressed = 0#16 := by
      refine leastKey_eq_none.1 (Option.eq_none_iff_forall_ne_some.2 fun k hk => ?_)
      obtain ⟨hpress, -⟩ := leastKey_eq_some.1 hk
      rw [getLsbD_newlyPressed, Bool.and_eq_true, Bool.not_eq_true'] at hpress
      obtain ⟨hnow, hbefore⟩ := hpress
      exact Bool.eq_false_iff.1 hbefore (hheld k hnow)
    refine ⟨s.recordKeys, ?_, rfl, ha, rfl, keepsAllBut_recordKeys s⟩
    rw [hcycle, keyWaitPoll_of_no_press hnone]

/-! ## The execution state (R107) -/

/-- No command but RunCycle and SetDefaults writes the key wait. -/
theorem perform_awaiting {c : Command} {s t : State} (h : perform c s = .next t) (hcycle : c ≠ .runCycle)
    (hdefaults : c ≠ .setDefaults) : t.awaiting = s.awaiting := by
  cases c with
  | setDefaults => exact absurd rfl hdefaults
  | runCycle => exact absurd rfl hcycle
  | load buf => obtain ⟨bytes, -, -, rfl⟩ := load_next h; rfl
  | start => obtain ⟨-, rfl⟩ := start_next h; rfl
  | _ => cases h; rfl

/-- Settles O43: a running core begins to wait by `LD Vx, K` only. -/
theorem keyWaitStateMachine : Obligations.KeyWaitStateMachine := by
  refine ⟨fun s t ha h => ?_, fun c s t => perform_awaiting, fun s => ⟨setDefaults s, rfl, rfl⟩⟩
  obtain ⟨-, ⟨hawait, -⟩ | ⟨-, i, hdec, hexec⟩⟩ := runCycle_next h
  · rw [ha] at hawait
    cases hawait
  · rw [exec_awaiting ha hexec, hdec]
    simp

end Sys2Proof.Machine
end

section
/-! Proofs about the host's commands of 60_exceptions.md and 70_reset_and_hazards.md, and about the timers. -/

namespace Sys2Proof.Machine

/-! ## The timers -/

/-- Settles O45: each timer counts down on its own. -/
theorem tickCountsBothTimersDown : Obligations.TickCountsBothTimersDown := by
  refine fun s => ⟨tick s, rfl, toNat_countDown s.dt, toNat_countDown s.st, fun p hp => ?_⟩
  cases p with
  | dt | st => simp at hp
  | _ => simp [Part.same, tick]

/-- A command that is no timer write, no Tick and no SetDefaults keeps both timers; a RunCycle is a timer write where
the word at `PC` is a timer instruction. -/
theorem perform_timers {c : Command} {s t : State} (h : perform c s = .next t)
    (hdt : ∀ b, c ≠ .writeDT b) (hst : ∀ b, c ≠ .writeST b)
    (hcycle : ∀ x, c = .runCycle →
      decodeWord (wordAtPc s) ≠ some (.ldDtVx x) ∧ decodeWord (wordAtPc s) ≠ some (.ldStVx x))
    (htick : c ≠ .tick) (hdefaults : c ≠ .setDefaults) : t.dt = s.dt ∧ t.st = s.st := by
  cases c with
  | setDefaults => exact absurd rfl hdefaults
  | tick => exact absurd rfl htick
  | writeDT b => exact absurd rfl (hdt b)
  | writeST b => exact absurd rfl (hst b)
  | load buf => obtain ⟨bytes, -, -, rfl⟩ := load_next h; exact ⟨rfl, rfl⟩
  | start => obtain ⟨-, rfl⟩ := start_next h; exact ⟨rfl, rfl⟩
  | runCycle =>
    obtain ⟨-, -, -, hdt', hst'⟩ := cycleLeavesHostStateAlone s t h
    exact ⟨hdt'.resolve_right fun ⟨x, hdec, _⟩ => (hcycle x rfl).1 hdec,
      hst'.resolve_right fun ⟨x, hdec, _⟩ => (hcycle x rfl).2 hdec⟩
  | _ => cases h; exact ⟨rfl, rfl⟩

/-- Settles O46: Tick counts down, SetDefaults puts 0, and every other command kept the timers. -/
theorem timersRiseOnlyByTimerWrites : Obligations.TimersRiseOnlyByTimerWrites := by
  intro c s t h hdt hst hcycle
  have hsame := perform_timers h hdt hst hcycle
  by_cases htick : c = .tick
  · subst htick
    cases h
    exact ⟨by simp [tick], by simp [tick], fun hne => absurd rfl hne⟩
  · by_cases hdefaults : c = .setDefaults
    · subst hdefaults
      cases h
      exact ⟨Nat.zero_le _, Nat.zero_le _, fun _ hne => absurd rfl hne⟩
    · obtain ⟨hdt', hst'⟩ := hsame htick hdefaults
      exact ⟨by rw [hdt'], by rw [hst'], fun _ _ => ⟨hdt', hst'⟩⟩

/-! ## Reset, load, start -/

/-- Settles O47: every field of the core is the reset state's. -/
theorem setDefaultsResetsTheCore : Obligations.SetDefaultsResetsTheCore := by
  refine fun s => ⟨setDefaults s, rfl, fun p hp => ?_, rfl, rfl, rfl, rfl⟩
  cases p with
  | draws | inbox => simp at hp
  | _ => simp [Part.same, setDefaults, State.reg]

/-- The frame of a `Load` that completes. -/
theorem keepsAllBut_load (s : State) (bytes : List Byte) : KeepsAllBut [.memory, .loaded, .progLen] s
    { s.storeBytes 0x200 bytes with loaded := true, progLen := bytes.length } := by
  intro p hp
  cases p with
  | memory | loaded | progLen => simp at hp
  | _ => simp [Part.same, State.reg, State.storeBytes]

/-- Settles O48: both checks come first, and the bytes are written one after another from 0x200 on. -/
theorem loadCopiesTheProgram : Obligations.LoadCopiesTheProgram := by
  refine fun s => ⟨rfl, fun buf => ⟨fun hlong => ?_, fun hle => ?_⟩⟩
  · rw [perform, load, if_pos hlong, raise]
  · refine ⟨{ s.storeBytes 0x200 buf with loaded := true, progLen := buf.length }, ?_, rfl, rfl, fun j hj => ?_, ?_,
      keepsAllBut_load s buf⟩
    · rw [perform, load, if_neg (not_lt.2 hle)]
    · exact read_storeBytes_advance s 0x200 hj
    · exact keepsMemoryOutside_storeBytes_advance s 0x200 buf

/-- Settles O49: the guard is all that `Start` does. -/
theorem startIsOnlyAGuard : Obligations.StartIsOnlyAGuard := fun s =>
  ⟨fun h => by simp [perform, start, raise, h], fun h => by simp [perform, start, h]⟩

/-! ## The host's writes and the read of the screen -/

theorem keepsAllBut_setKeys (s : State) (k : Keys) : KeepsAllBut [.keypad] s (setKeys k s) := by
  intro p hp
  cases p with
  | keypad => simp at hp
  | _ => simp [Part.same, setKeys, State.reg]

theorem keepsAllBut_setDt (s : State) (b : Byte) : KeepsAllBut [.dt] s (s.setDt b) := by
  intro p hp
  cases p with
  | dt => simp at hp
  | _ => simp [Part.same]

theorem keepsAllBut_setSt (s : State) (b : Byte) : KeepsAllBut [.st] s (s.setSt b) := by
  intro p hp
  cases p with
  | st => simp at hp
  | _ => simp [Part.same]

/-- Settles O50: the transition of each of the three overwrites one field, and the answer is `ok`. -/
theorem hostWritesChangeOneThing : Obligations.HostWritesChangeOneThing := fun k b s =>
  ⟨⟨setKeys k s, serve_of_next rfl, rfl, keepsAllBut_setKeys s k⟩,
    ⟨s.setDt b, serve_of_next rfl, rfl, keepsAllBut_setDt s b⟩,
    ⟨s.setSt b, serve_of_next rfl, rfl, keepsAllBut_setSt s b⟩⟩

theorem getD_readOut (fb : Framebuffer) (x : Fin 64) (y : Fin 32) :
    fb.readOut.toList.getD (y.val * 64 + x.val) false = fb.cell x y := by
  have hlt : y.val * 64 + x.val < 2048 := by omega
  have hmod : (y.val * 64 + x.val) % 64 = x.val := by omega
  have hdiv : (y.val * 64 + x.val) / 64 = y.val := by omega
  simp [Framebuffer.readOut, hlt, hmod, hdiv]

/-- Settles O53: the answer is the cells in row order and the dirty flag, and the transition is the identity. -/
theorem readFramebufferInRowOrder : Obligations.ReadFramebufferInRowOrder := fun s =>
  ⟨s.fb.readOut, serve_of_next rfl, getD_readOut s.fb⟩

end Sys2Proof.Machine
end
